-- ==== Sys2Proof/Word.lean ====
section
/-! DEFINITION. The word, the byte and the register index (spec 00_scope.md R8, R10; 10_state.md R25). -/

namespace Sys2Proof

/-- A 32-bit pattern, the content of every register and memory word (R10). `w.toNat` is the spec's
`u(w)` and `w.toInt` its `s(w)`. -/
abbrev Word := BitVec 32

/-- One byte of memory (R40). -/
abbrev Byte := BitVec 8

/-- A general-purpose register index: every index comes from a 5-bit field, so it is in 0..31 (R25). -/
abbrev Reg := Fin 32

end Sys2Proof
end

