-- ==== Sys2Proof/Config.lean ====
section
/-! DEFINITION. The implementation parameters of the spec (00_scope.md R8), as plain data.

A `Config` is fixed for a run. It stands in `State.cfg` so that a statement about every state holds
for every value of every open parameter (log entry 1). IMAGE and SEED are inputs of a launch
(Machine/Launch.lean), ENC is the named table `Enc` of Decode.lean. -/

namespace Sys2Proof

/-- The parameter DIV_OVERFLOW: what `div` does with 0x80000000 / 0xFFFFFFFF (R8, R122, D10). -/
inductive DivOverflow where
  | wrap
  | fault
  deriving DecidableEq, Repr, Inhabited

/-- The parameter JALR_ORDER: whether `jalr $31` reads its target before it writes the link or
after (R8, R176, D11). -/
inductive JalrOrder where
  | readFirst
  | linkFirst
  deriving DecidableEq, Repr, Inhabited

/-- The largest MEM_SIZE the spec admits, 2^31 - 2^15 (R8, D3). Larger memories are outside the
modelled range (93_implementation_defined.md U11). -/
abbrev maxMemSize : Nat := 0x7FFF8000

/-- The parameters of one machine (R8). -/
structure Config where
  /-- MEM_SIZE, the number of bytes of the MemoryStore, fixed for a run (R8, R41). -/
  memSize     : Fin (maxMemSize + 1)
  /-- SENTINEL, the pattern whose appearance in PC ends a run (R8, R220). -/
  sentinel    : Word
  /-- OUTPUT_ADDR, the address whose word writes go to the output stream (R8, R44). -/
  outputAddr  : Word
  /-- DIV_OVERFLOW (R8, R122). -/
  divOverflow : DivOverflow
  /-- JALR_ORDER (R8, R176). -/
  jalrOrder   : JalrOrder
  /-- STACK_TOP, read by the diagnostics walkers only (R8, R224). -/
  stackTop    : Word
  /-- HEAP_ORIGIN, read by the diagnostics walkers only (R8, R224). -/
  heapOrigin  : Word
  deriving DecidableEq, Repr, Inhabited

/-- The parameter values of `State.reset`. `divOverflow` and `jalrOrder` are the spec's defaults (R8;
log entry 4). The others are OPEN in the spec. `sentinel` and `outputAddr` are PRESUMED (log entries 2, 3),
`memSize`, `stackTop` and `heapOrigin` are a DESIGN CHOICE (log entries 1, 5). No statement rests on
them but those about `State.reset` itself. -/
def Config.atReset : Config where
  memSize     := ⟨maxMemSize, Nat.lt_succ_self maxMemSize⟩
  sentinel    := 0x8123456C
  outputAddr  := 0xFFFF000C
  divOverflow := .wrap
  jalrOrder   := .readFirst
  stackTop    := 0
  heapOrigin  := 0

end Sys2Proof
end

