-- ==== Sys2Proof/Machine/State.lean ====
section
/-! DEFINITION. The machine's state as plain data, the fault record, and the state at reset (spec
10_state.md R20..R34; 60_exceptions.md R200, R207). -/

namespace Sys2Proof
namespace Machine

/-- The part of the fault record that every reason has (R207). -/
structure FaultSite where
  /-- `f`, the fetch address of the step being executed, or of the step just completed for
  StackHeapCollision. -/
  f     : Word
  /-- `instr`, the fetched word, when the fetch succeeded. -/
  instr : Option Word
  /-- `STEPS`, the number of steps completed before the fault (R222). -/
  steps : Nat
  deriving DecidableEq, Repr, Inhabited

/-- The five fatal fault reasons (R200), each with its record (R207). Every one is safe: the spec itself
ends the run there (R206). -/
inductive Fault where
  /-- Code 1. Raised by any step at decode, when the fetched word matches no row of the opcode table
  (R201). Safe: the spec's own fault. -/
  | unknownInstruction (site : FaultSite)
  /-- Code 2. Raised by instruction fetch, `lis`, `lw` and `sw`, when a byte of the word at `addr` lies
  at or beyond MEM_SIZE (R202). Safe: the spec's own fault. -/
  | outOfBoundsMemoryAccess (site : FaultSite) (addr : Word)
  /-- Code 3. Raised by the run loop after a completed step that leaves the heap pointer above the stack
  pointer (R203, R221). Safe: the spec's own fault. -/
  | stackHeapCollision (site : FaultSite) (hp sp : Word)
  /-- Code 4. Raised by `div` and `divu` on a zero divisor (R204, D9). Safe: the spec's own fault. -/
  | divideByZero (site : FaultSite)
  /-- Code 5. Raised by `div` of 0x80000000 by 0xFFFFFFFF under DIV_OVERFLOW = `fault` (R205, D10).
  Safe: the spec's own fault. -/
  | divideOverflow (site : FaultSite)
  deriving DecidableEq, Repr, Inhabited

/-- Why something has no meaning in the model. -/
inductive Refusal where
  /-- Raised by an arm of `exec` whose instruction has no meaning yet; no arm does. Safe: nothing runs. -/
  | notModelled (mnemonic : String)
  /-- Raised by `launch` without a program image: no run exists (R227, U13). Safe: nothing runs. -/
  | imageMissing
  /-- Raised by `launch` for MEM_SIZE above 0x7FFF8000, outside the modelled range (R8, D3, U11). Safe:
  nothing runs. -/
  | memorySizeOutOfRange
  /-- Raised by `launch` for an image longer than MEM_SIZE (R8, R226). Safe: nothing runs. -/
  | imageTooLong
  deriving DecidableEq, Repr, Inhabited

/-- STATUS, how the run stands (R30). -/
inductive Status where
  | running
  | halted
  | faulted (r : Fault)
  deriving DecidableEq, Repr, Inhabited

/-- MARKS once a sample has been taken: the running minimum and maximum of GPR 30 (the stack pointer)
and of GPR 28 (the heap pointer) (R32). -/
structure Marks where
  spMin : Word
  spMax : Word
  hpMin : Word
  hpMax : Word
  deriving DecidableEq, Repr, Inhabited

/-- MEM: the bytes that are not 0x00, by rising address. An unlisted address reads as 0x00, the spec's
content of memory beyond the image at reset (R34, R240; log entry 14). -/
abbrev Memory := List Host.Cell

/-- The whole state (R20), beside the parameters of the run (R8). -/
structure State where
  /-- The parameters, which no step changes (R8, R41; log entry 1). -/
  cfg    : Config
  /-- GPR 0..31 (R21). -/
  gpr    : Vector Word 32
  /-- PC (R22). -/
  pc     : Word
  /-- HI (R24). -/
  hi     : Word
  /-- LO (R24). -/
  lo     : Word
  /-- MEM (R40). -/
  mem    : Memory
  /-- OUT, the words written to OUTPUT_ADDR in program order (R29). -/
  out    : List Word
  /-- STATUS (R30). -/
  status : Status
  /-- STEPS, the number of steps completed without fault (R31). -/
  steps  : Nat
  /-- MARKS; `none` before the first sample (R32, R34). -/
  marks  : Option Marks
  deriving DecidableEq, Repr, Inhabited

/-- The machine right after reset (R34): every GPR 0 but GPR 31 = SENTINEL, PC = HI = LO = 0, memory all
zero, OUT empty, STATUS Running, STEPS 0, MARKS empty. The image is empty and no register is seeded
(log entry 6); the parameters are `Config.atReset` (log entries 1 to 5). -/
def State.reset : State where
  cfg    := Config.atReset
  gpr    := (Vector.replicate 32 0#32).set 31 Config.atReset.sentinel
  pc     := 0
  hi     := 0
  lo     := 0
  mem    := []
  out    := []
  status := .running
  steps  := 0
  marks  := none

end Machine

/-- A free value: the registers, memory and output that a faulted run leaves. The spec says that none of
them is observable and that memory is unspecified (R45, R206; D14; U4, U5), so nothing is known of it
(log entry 8). Its arguments are the state when the fault is raised and the record. -/
opaque Config.discarded : Machine.State → Machine.Fault → Machine.State

end Sys2Proof
end

