-- ==== Sys2Proof/Machine/Flags.lean ====
section
/-! DEFINITION. The machine has no status flags (spec 10_state.md R26). What stands here are the conditions it
computes instead: a comparison's result is a word for a GPR, and a branch tests two words directly. -/

namespace Sys2Proof
namespace Machine

/-- A comparison's result as the word written to a GPR: 0x00000001 or 0x00000000 (R102, R103). -/
def boolWord (b : Bool) : Word := if b then 1 else 0

/-- `s(a) < s(b)` (R102). -/
def lessSigned (a b : Word) : Bool := decide (a.toInt < b.toInt)

/-- `u(a) < u(b)` (R103). -/
def lessUnsigned (a b : Word) : Bool := decide (a.toNat < b.toNat)

/-- The branch condition of `beq`: the 32-bit patterns are equal (R177). -/
def sameWord (a b : Word) : Bool := decide (a = b)

/-- The operands on which `div` has no 32-bit quotient: -2^31 by -1 (R122, R205). -/
def divOverflows (a b : Word) : Bool := decide (a.toInt = -2 ^ 31 ∧ b.toInt = -1)

end Machine
end Sys2Proof
end

