-- ==== Sys2Proof/Syntax.lean ====
section
/-! DEFINITION. The closed set of seventeen instructions (spec 00_scope.md R2; 30_encoding.md R80). -/

namespace Sys2Proof

/-- One constructor per row of the opcode table. The operands are those the instruction's rule reads
or writes, in the order of 30_encoding.md R85. A register field that the rule does not use is ignored
(R75) and so is no operand. `imm` is the value of the sign-extended 16-bit immediate, s(imm) (R73).
The literal of `lis` is data in memory that the instruction reads when it runs (R78, R150), so it is
no operand either (log entry 11). -/
inductive Instr where
  /-- `add $d, $s, $t` (R100) -/
  | add (rs rt rd : Reg)
  /-- `sub $d, $s, $t` (R101) -/
  | sub (rs rt rd : Reg)
  /-- `mult $s, $t` (R120) -/
  | mult (rs rt : Reg)
  /-- `multu $s, $t` (R121) -/
  | multu (rs rt : Reg)
  /-- `div $s, $t` (R122) -/
  | div (rs rt : Reg)
  /-- `divu $s, $t` (R123) -/
  | divu (rs rt : Reg)
  /-- `mfhi $d` (R126) -/
  | mfhi (rd : Reg)
  /-- `mflo $d` (R127) -/
  | mflo (rd : Reg)
  /-- `lis $d` (R150) -/
  | lis (rd : Reg)
  /-- `slt $d, $s, $t` (R102) -/
  | slt (rs rt rd : Reg)
  /-- `sltu $d, $s, $t` (R103) -/
  | sltu (rs rt rd : Reg)
  /-- `jr $s` (R174) -/
  | jr (rs : Reg)
  /-- `jalr $s` (R175) -/
  | jalr (rs : Reg)
  /-- `lw $t, imm($s)` (R151) -/
  | lw (rs rt : Reg) (imm : Int)
  /-- `sw $t, imm($s)` (R152) -/
  | sw (rs rt : Reg) (imm : Int)
  /-- `beq $s, $t, imm` (R177) -/
  | beq (rs rt : Reg) (imm : Int)
  /-- `bne $s, $t, imm` (R178) -/
  | bne (rs rt : Reg) (imm : Int)
  deriving DecidableEq, Repr, Inhabited

end Sys2Proof
end

