-- ==== Sys2Proof/WellFormed.lean ====
section
/-! DEFINITION. Which instruction terms some word encodes. A register operand is in range by its type
(R25). An immediate is the value of a signed 16-bit field (R72, R73). -/

namespace Sys2Proof

/-- `imm` is the value of a signed 16-bit field: s(imm) in [-32768, 32767] (R73). -/
abbrev immInRange (imm : Int) : Bool := decide (-32768 ≤ imm ∧ imm ≤ 32767)

/-- The instruction has an encoding (R71, R72, R73). -/
def Instr.wf : Instr → Bool
  | .add _ _ _   => true
  | .sub _ _ _   => true
  | .mult _ _    => true
  | .multu _ _   => true
  | .div _ _     => true
  | .divu _ _    => true
  | .mfhi _      => true
  | .mflo _      => true
  | .lis _       => true
  | .slt _ _ _   => true
  | .sltu _ _ _  => true
  | .jr _        => true
  | .jalr _      => true
  | .lw _ _ imm  => immInRange imm
  | .sw _ _ imm  => immInRange imm
  | .beq _ _ imm => immInRange imm
  | .bne _ _ imm => immInRange imm

end Sys2Proof
end

