-- ==== Sys2Proof/Decode.lean ====
section
/-! DEFINITION. The instruction word: byte order, fields, the table of encodings, the decoder and the
encoder (spec 30_encoding.md R70..R80, R85). -/

namespace Sys2Proof

/-! ## Byte order (20_memory.md R43, R48) -/

/-- The little-endian composition of four bytes: `b0` is least significant (R43, R70). -/
def wordOfBytes (b0 b1 b2 b3 : Byte) : Word := b3 ++ b2 ++ b1 ++ b0

/-- Byte `k` of a word, byte 0 the least significant: `v[8k+7 : 8k]` (R44). -/
def byteOfWord (v : Word) (k : Nat) : Byte := v.extractLsb' (8 * k) 8

/-! ## Fields (R71, R72): bit 31 is the most significant (R9, R70) -/

def opcodeOf (w : Word) : BitVec 6  := w.extractLsb' 26 6
def fieldS   (w : Word) : Reg       := (w.extractLsb' 21 5).toFin
def fieldT   (w : Word) : Reg       := (w.extractLsb' 16 5).toFin
def fieldD   (w : Word) : Reg       := (w.extractLsb' 11 5).toFin
/-- The function key is all 11 low bits, the standard shift amount included (R74). -/
def funcOf   (w : Word) : BitVec 11 := w.extractLsb' 0 11
/-- The only immediate, the 16-bit field read as a signed value (R72, R73). -/
def immOf    (w : Word) : Int       := (w.extractLsb' 0 16).toInt

/-! ## ENC: the opcode and function-key numbers (R80, R76, R77; D1; log entry 7) -/

def Enc.opcodeR : BitVec 6  := 0x00
def Enc.add     : BitVec 11 := 0x020
def Enc.sub     : BitVec 11 := 0x022
def Enc.mult    : BitVec 11 := 0x018
def Enc.multu   : BitVec 11 := 0x019
def Enc.div     : BitVec 11 := 0x01A
def Enc.divu    : BitVec 11 := 0x01B
def Enc.mfhi    : BitVec 11 := 0x010
def Enc.mflo    : BitVec 11 := 0x012
def Enc.lis     : BitVec 11 := 0x014
def Enc.slt     : BitVec 11 := 0x02A
def Enc.sltu    : BitVec 11 := 0x02B
def Enc.jr      : BitVec 11 := 0x008
def Enc.jalr    : BitVec 11 := 0x009
def Enc.lw      : BitVec 6  := 0x23
def Enc.sw      : BitVec 6  := 0x2B
def Enc.beq     : BitVec 6  := 0x04
def Enc.bne     : BitVec 6  := 0x05

/-- Why a word or a byte string is no instruction. -/
inductive DecodeError where
  /-- Opcode 0, and the 11-bit function key matches no row (R76, R79). -/
  | unknownFunction (key : BitVec 11)
  /-- The opcode is not 0 and matches no row (R77, R79). -/
  | unknownOpcode (opcode : BitVec 6)
  /-- Fewer than four bytes: no instruction word at all (R70). -/
  | truncated
  deriving DecidableEq, Repr

/-- The R format's dispatch, keyed by the function key (R76). -/
def decodeR (func : BitVec 11) (s t d : Reg) : Except DecodeError Instr :=
  if func = Enc.jr then .ok (.jr s)
  else if func = Enc.jalr then .ok (.jalr s)
  else if func = Enc.mfhi then .ok (.mfhi d)
  else if func = Enc.mflo then .ok (.mflo d)
  else if func = Enc.lis then .ok (.lis d)
  else if func = Enc.mult then .ok (.mult s t)
  else if func = Enc.multu then .ok (.multu s t)
  else if func = Enc.div then .ok (.div s t)
  else if func = Enc.divu then .ok (.divu s t)
  else if func = Enc.add then .ok (.add s t d)
  else if func = Enc.sub then .ok (.sub s t d)
  else if func = Enc.slt then .ok (.slt s t d)
  else if func = Enc.sltu then .ok (.sltu s t d)
  else .error (.unknownFunction func)

/-- The I format's dispatch, keyed by the opcode (R77). -/
def decodeI (op : BitVec 6) (s t : Reg) (imm : Int) : Except DecodeError Instr :=
  if op = Enc.beq then .ok (.beq s t imm)
  else if op = Enc.bne then .ok (.bne s t imm)
  else if op = Enc.lw then .ok (.lw s t imm)
  else if op = Enc.sw then .ok (.sw s t imm)
  else .error (.unknownOpcode op)

/-- Decoding one instruction word (R85). Unused register fields are not looked at (R75). -/
def decode (w : Word) : Except DecodeError Instr :=
  if opcodeOf w = Enc.opcodeR then decodeR (funcOf w) (fieldS w) (fieldT w) (fieldD w)
  else decodeI (opcodeOf w) (fieldS w) (fieldT w) (immOf w)

/-- The bytes an instruction occupies, told from its first word alone: `lis` is followed by a literal
word that it consumes, every other instruction is one word (R78). -/
def Instr.length : Instr → Nat
  | .lis _       => 8
  | .add _ _ _   => 4
  | .sub _ _ _   => 4
  | .mult _ _    => 4
  | .multu _ _   => 4
  | .div _ _     => 4
  | .divu _ _    => 4
  | .mfhi _      => 4
  | .mflo _      => 4
  | .slt _ _ _   => 4
  | .sltu _ _ _  => 4
  | .jr _        => 4
  | .jalr _      => 4
  | .lw _ _ _    => 4
  | .sw _ _ _    => 4
  | .beq _ _ _   => 4
  | .bne _ _ _   => 4

/-- The longest instruction, in bytes: `lis` with its literal (R78). -/
def maxInstrLength : Nat := 8

/-- Decoding at the head of any byte string: the instruction and the bytes after it. -/
def decodeBytes : List Byte → Except DecodeError (Instr × List Byte)
  | b0 :: b1 :: b2 :: b3 :: rest =>
    match decode (wordOfBytes b0 b1 b2 b3) with
    | .ok i    => .ok (i, rest.drop (i.length - 4))
    | .error e => .error e
  | _ => .error .truncated

/-- The bytes of the number `w` of `nbits` bits as memory stores them, lowest address first, up to the
longest instruction (R48). Every bit from `nbits` up is 0. -/
def tableBytes (nbits w : Nat) : List Byte :=
  let v : BitVec 64 := BitVec.ofNat 64 (w % 2 ^ nbits)
  [v.extractLsb' 0 8, v.extractLsb' 8 8, v.extractLsb' 16 8, v.extractLsb' 24 8,
   v.extractLsb' 32 8, v.extractLsb' 40 8, v.extractLsb' 48 8, v.extractLsb' 56 8]

/-- The instruction the decoder reads from an instruction whose bits are `w`, numbered as the opcode
table numbers them. -/
def decodeTableWord (nbits w : Nat) : Option Instr :=
  match decodeBytes (tableBytes nbits w) with
  | .ok (i, _) => some i
  | .error _   => none

/-! ## Encoding, from the same table -/

def regBits (r : Reg) : BitVec 5 := BitVec.ofFin r

/-- An R-format word (R71). -/
def wordR (s t d : Reg) (func : BitVec 11) : Word :=
  Enc.opcodeR ++ regBits s ++ regBits t ++ regBits d ++ func

/-- An I-format word (R72). -/
def wordI (op : BitVec 6) (s t : Reg) (imm : Int) : Word :=
  op ++ regBits s ++ regBits t ++ BitVec.ofInt 16 imm

/-- The instruction word of an instruction. Fields the instruction ignores are written as zeros, as a
standard assembler writes them (R80). -/
def encode : Instr → Word
  | .add rs rt rd    => wordR rs rt rd Enc.add
  | .sub rs rt rd    => wordR rs rt rd Enc.sub
  | .mult rs rt      => wordR rs rt 0 Enc.mult
  | .multu rs rt     => wordR rs rt 0 Enc.multu
  | .div rs rt       => wordR rs rt 0 Enc.div
  | .divu rs rt      => wordR rs rt 0 Enc.divu
  | .mfhi rd         => wordR 0 0 rd Enc.mfhi
  | .mflo rd         => wordR 0 0 rd Enc.mflo
  | .lis rd          => wordR 0 0 rd Enc.lis
  | .slt rs rt rd    => wordR rs rt rd Enc.slt
  | .sltu rs rt rd   => wordR rs rt rd Enc.sltu
  | .jr rs           => wordR rs 0 0 Enc.jr
  | .jalr rs         => wordR rs 0 0 Enc.jalr
  | .lw rs rt imm    => wordI Enc.lw rs rt imm
  | .sw rs rt imm    => wordI Enc.sw rs rt imm
  | .beq rs rt imm   => wordI Enc.beq rs rt imm
  | .bne rs rt imm   => wordI Enc.bne rs rt imm

/-- The four bytes of an instruction word, lowest address first (R48). -/
def encodeBytes (i : Instr) : List Byte :=
  [byteOfWord (encode i) 0, byteOfWord (encode i) 1, byteOfWord (encode i) 2, byteOfWord (encode i) 3]

/-! ## The table of encodings as the spec prints it (R80) -/

/-- One row of R80: a word is that instruction exactly when `word AND mask = value`. -/
structure EncRow where
  mnemonic : String
  value    : Word
  mask     : Word
  deriving DecidableEq, Repr

/-- The row of R80 that an instruction belongs to. -/
def Instr.row : Instr → EncRow
  | .add _ _ _   => ⟨"add",   0x00000020, 0xFC0007FF⟩
  | .sub _ _ _   => ⟨"sub",   0x00000022, 0xFC0007FF⟩
  | .mult _ _    => ⟨"mult",  0x00000018, 0xFC0007FF⟩
  | .multu _ _   => ⟨"multu", 0x00000019, 0xFC0007FF⟩
  | .div _ _     => ⟨"div",   0x0000001A, 0xFC0007FF⟩
  | .divu _ _    => ⟨"divu",  0x0000001B, 0xFC0007FF⟩
  | .mfhi _      => ⟨"mfhi",  0x00000010, 0xFC0007FF⟩
  | .mflo _      => ⟨"mflo",  0x00000012, 0xFC0007FF⟩
  | .lis _       => ⟨"lis",   0x00000014, 0xFC0007FF⟩
  | .slt _ _ _   => ⟨"slt",   0x0000002A, 0xFC0007FF⟩
  | .sltu _ _ _  => ⟨"sltu",  0x0000002B, 0xFC0007FF⟩
  | .jr _        => ⟨"jr",    0x00000008, 0xFC0007FF⟩
  | .jalr _      => ⟨"jalr",  0x00000009, 0xFC0007FF⟩
  | .lw _ _ _    => ⟨"lw",    0x8C000000, 0xFC000000⟩
  | .sw _ _ _    => ⟨"sw",    0xAC000000, 0xFC000000⟩
  | .beq _ _ _   => ⟨"beq",   0x10000000, 0xFC000000⟩
  | .bne _ _ _   => ⟨"bne",   0x14000000, 0xFC000000⟩

/-- The seventeen rows of R80, in the spec's order. -/
def encTable : List EncRow :=
  [Instr.row (.add 0 0 0), Instr.row (.sub 0 0 0), Instr.row (.mult 0 0), Instr.row (.multu 0 0),
   Instr.row (.div 0 0), Instr.row (.divu 0 0), Instr.row (.mfhi 0), Instr.row (.mflo 0),
   Instr.row (.lis 0), Instr.row (.slt 0 0 0), Instr.row (.sltu 0 0 0), Instr.row (.jr 0),
   Instr.row (.jalr 0), Instr.row (.lw 0 0 0), Instr.row (.sw 0 0 0), Instr.row (.beq 0 0 0),
   Instr.row (.bne 0 0 0)]

end Sys2Proof
end

