-- ==== Sys2Proof/Machine/Operands.lean ====
section
/-! DEFINITION. Registers, the link value and the addresses an instruction forms (spec 00_scope.md R10..R12;
10_state.md R21, R22; 42_literal_load_store.md R153; 43_control.md R179). -/

namespace Sys2Proof
namespace Machine

/-- `wrap32(n)`: the word whose unsigned value is `n mod 2^32`, for any integer `n` (R10). -/
def wrap32 (n : Int) : Word := BitVec.ofInt 32 n

/-! ## Registers -/

/-- `x[i]`: GPR 0 always reads as zero (R21). -/
def State.x (s : State) (i : Reg) : Word := if i = 0 then 0 else s.gpr[i]

/-- The register file after `x[i] <- v`: a write to index 0 is discarded (R21). -/
def gprWrite (g : Vector Word 32) (i : Reg) (v : Word) : Vector Word 32 :=
  if i = 0 then g else g.set i v

/-- `x[i] <- v` (R21). -/
def State.setX (s : State) (i : Reg) (v : Word) : State := { s with gpr := gprWrite s.gpr i v }

/-- `PC <- v` (R22). -/
def State.setPc (s : State) (v : Word) : State := { s with pc := v }

/-- `HI <- h; LO <- l`: the four instructions that write the pair write both (R24, R125). -/
def State.setHiLo (s : State) (h l : Word) : State := { s with hi := h, lo := l }

/-- GPR 31, the link register (R14, R175). -/
abbrev linkReg : Reg := 31

/-- GPR 30, the stack pointer by convention (R33). -/
abbrev spReg : Reg := 30

/-- GPR 28, the heap pointer by convention (R33). -/
abbrev hpReg : Reg := 28

/-! ## Addresses -/

/-- The address of the next word, `wrap32(u(a) + 4)` (R84, R150). -/
def nextWord (a : Word) : Word := wrap32 ((a.toNat : Int) + 4)

/-- The address of the word before, `wrap32(u(a) - 4)`. While an instruction executes, PC holds the fetch
address plus 4 (R22), so this is the fetch address. -/
def prevWord (a : Word) : Word := wrap32 ((a.toNat : Int) - 4)

/-- The one data addressing mode: base register plus signed displacement (R153). -/
def effectiveAddress (base : Word) (imm : Int) : Word := wrap32 (base.toInt + imm)

/-- The target of a branch, relative to the already-advanced PC, the offset in words (R179). -/
def branchTarget (npc : Word) (imm : Int) : Word := wrap32 ((npc.toNat : Int) + 4 * imm)

end Machine
end Sys2Proof
end

