-- ==== Sys2Proof/Machine/Ops.lean ====
section
/-! DEFINITION. The named operations: the memory bytes and words, the output port, and raising a fault (spec
20_memory.md R42..R48; 60_exceptions.md R206, R207). -/

namespace Sys2Proof
namespace Machine

/-- The answer of an instruction or a step. -/
abbrev Answer := Host.Outcome State Fault Refusal

/-! ## Bytes -/

/-- The byte at an address: an unlisted address reads as 0x00 (R34). -/
def Memory.read : Memory → Nat → Byte
  | [], _          => 0
  | (k, v) :: m, a => if a = k then v else Memory.read m a

/-- Puts a byte at its place in the rising order, over the one that stood there. -/
def Memory.insert : Memory → Nat → Byte → Memory
  | [], a, b => [(a, b)]
  | (k, v) :: m, a, b =>
    if a < k then (a, b) :: (k, v) :: m
    else if a = k then (a, b) :: m
    else (k, v) :: Memory.insert m a b

/-- `MEM[a] := b` (R42). Writing the byte an unlisted address reads as removes the entry, so equal
memories are equal lists. -/
def Memory.write (m : Memory) (a : Nat) (b : Byte) : Memory :=
  if b = 0 then m.filter (fun c => c.1 ≠ a) else Memory.insert m a b

/-- The canonical form: addresses strictly rising, and no entry equal to what an unlisted address reads
as. -/
abbrev Memory.wf (m : Memory) : Prop :=
  m.Pairwise (fun c e => c.1 < e.1) ∧ ∀ c ∈ m, c.2 ≠ 0

/-- Every entry is a byte of the store: its address is below `size` (R40, R42). -/
abbrev Memory.within (m : Memory) (size : Nat) : Prop := ∀ c ∈ m, c.1 < size

/-- The four bytes from `a` on, the first least significant (R43). -/
def Memory.readWord (m : Memory) (a : Nat) : Word :=
  wordOfBytes (m.read a) (m.read (a + 1)) (m.read (a + 2)) (m.read (a + 3))

/-- Stores a word's four bytes from `a` on, least significant first (R44). -/
def Memory.writeWord (m : Memory) (a : Nat) (v : Word) : Memory :=
  (((m.write a (byteOfWord v 0)).write (a + 1) (byteOfWord v 1)).write (a + 2) (byteOfWord v 2)).write
    (a + 3) (byteOfWord v 3)

/-- Bytes laid out from an address on, in an otherwise zero memory (R240 step 1). -/
def Memory.ofBytes : Nat → List Byte → Memory
  | _, []      => []
  | a, b :: bs => if b = 0 then Memory.ofBytes (a + 1) bs else (a, b) :: Memory.ofBytes (a + 1) bs

/-! ## Word accesses -/

/-- All four bytes of the word at `addr` are inside the store. The byte indices do not wrap (R43, R44, D13). -/
def State.inBounds (s : State) (addr : Word) : Bool := decide (addr.toNat + 3 < s.cfg.memSize.val)

/-- `MemRead(addr, 4)`: `none` where it raises OutOfBoundsMemoryAccess (R43). Any alignment (R47), and
OUTPUT_ADDR is not special (R52). -/
def State.memRead (s : State) (addr : Word) : Option Word :=
  if s.inBounds addr then some (s.mem.readWord addr.toNat) else none

/-- `emit(v)`: the whole word goes to the end of the output stream (R46). -/
def State.emit (s : State) (v : Word) : State := { s with out := s.out ++ [v] }

/-- `MemWrite(addr, 4, v)`: `none` where it raises OutOfBoundsMemoryAccess (R44). The port is selected by
the whole address, before any bounds check, and then memory is not touched (R44, R53). -/
def State.memWrite (s : State) (addr v : Word) : Option State :=
  if addr = s.cfg.outputAddr then some (s.emit v)
  else if s.inBounds addr then some { s with mem := s.mem.writeWord addr.toNat v }
  else none

/-- Stores bytes from an address on, as a loader outside the machine does, leaving out any beyond the
store. -/
def State.placeBytes (s : State) : Nat → List Byte → State
  | _, []      => s
  | a, b :: bs =>
    State.placeBytes (if a < s.cfg.memSize.val then { s with mem := s.mem.write a b } else s) (a + 1) bs

/-! ## Faults -/

/-- The number of a reason (R200). -/
def Fault.code : Fault → Nat
  | .unknownInstruction _        => 1
  | .outOfBoundsMemoryAccess _ _ => 2
  | .stackHeapCollision _ _ _    => 3
  | .divideByZero _              => 4
  | .divideOverflow _            => 5

/-- The part of a record that every reason has (R207). -/
def Fault.site : Fault → FaultSite
  | .unknownInstruction site        => site
  | .outOfBoundsMemoryAccess site _ => site
  | .stackHeapCollision site _ _    => site
  | .divideByZero site              => site
  | .divideOverflow site            => site

/-- The record's site for a fault that an executing instruction raises (R207). PC holds npc, so the fetch
address is the word before it, and `instr` is the word that stands there: no instruction raises a fault
after it has stored (R210; log entry 10). -/
def State.site (s : State) : FaultSite where
  f     := prevWord s.pc
  instr := s.memRead (prevWord s.pc)
  steps := s.steps

/-- `raise F(info)`: the step stops with the record and has no further effect (R206 step 1). There is no
handler and no vector, nothing is saved and no control is transferred (R209). -/
def raise (r : Fault) : Answer := .fault r

/-- What a raised fault makes of the run (R206 steps 2 and 3): STATUS <- Faulted(F, info). Nothing else of a
faulted state is observable, so all of it but the parameters is a free value (R45; log entry 8). -/
def State.fail (s : State) (r : Fault) : State :=
  { Config.discarded s r with cfg := s.cfg, status := .faulted r }

end Machine
end Sys2Proof
end

