-- ==== Sys2Proof/Machine/Arith.lean ====
section
/-! DEFINITION. add, sub, slt, sltu (spec 40_arith_compare.md R100..R104). PC already holds npc and stays so. -/

namespace Sys2Proof
namespace Machine

/-- `add $d, $s, $t` (R100): wraps silently. -/
def execAdd (rs rt rd : Reg) (s : State) : Answer :=
  .next (s.setX rd (wrap32 ((s.x rs).toInt + (s.x rt).toInt)))

/-- `sub $d, $s, $t` (R101): wraps silently. -/
def execSub (rs rt rd : Reg) (s : State) : Answer :=
  .next (s.setX rd (wrap32 ((s.x rs).toInt - (s.x rt).toInt)))

/-- `slt $d, $s, $t` (R102). -/
def execSlt (rs rt rd : Reg) (s : State) : Answer :=
  .next (s.setX rd (boolWord (lessSigned (s.x rs) (s.x rt))))

/-- `sltu $d, $s, $t` (R103). -/
def execSltu (rs rt rd : Reg) (s : State) : Answer :=
  .next (s.setX rd (boolWord (lessUnsigned (s.x rs) (s.x rt))))

end Machine
end Sys2Proof
end

