-- ==== Sys2Proof/Machine/Control.lean ====
section
/-! DEFINITION. jr, jalr, beq, bne (spec 43_control.md R174..R182). PC holds npc on entry. There is no delay
slot (R180) and no target faults at this step (R181). -/

namespace Sys2Proof
namespace Machine

/-- `jr $s` (R174). -/
def execJr (rs : Reg) (s : State) : Answer := .next (s.setPc (s.x rs))

/-- `jalr $s` (R175): GPR 31 gets npc, PC the target. Whether the target is read before or after the link is
written is the parameter JALR_ORDER; it makes a difference for `jalr $31` only (R176). -/
def execJalr (rs : Reg) (s : State) : Answer :=
  match s.cfg.jalrOrder with
  | .readFirst => .next ((s.setX linkReg s.pc).setPc (s.x rs))
  | .linkFirst => .next ((s.setX linkReg s.pc).setPc ((s.setX linkReg s.pc).x rs))

/-- `beq $s, $t, imm` (R177). -/
def execBeq (rs rt : Reg) (imm : Int) (s : State) : Answer :=
  if sameWord (s.x rs) (s.x rt) then .next (s.setPc (branchTarget s.pc imm)) else .next s

/-- `bne $s, $t, imm` (R178). -/
def execBne (rs rt : Reg) (imm : Int) (s : State) : Answer :=
  if sameWord (s.x rs) (s.x rt) then .next s else .next (s.setPc (branchTarget s.pc imm))

end Machine
end Sys2Proof
end

