-- ==== Sys2Proof/Machine/LoadStore.lean ====
section
/-! DEFINITION. lis, lw, sw (spec 42_literal_load_store.md R150..R154). PC holds npc on entry. -/

namespace Sys2Proof
namespace Machine

/-- `lis $d` (R150): loads the word at npc and skips it. With d = 0 the literal is still read, and may
still fault. -/
def execLis (rd : Reg) (s : State) : Answer :=
  match s.memRead s.pc with
  | none   => raise (.outOfBoundsMemoryAccess s.site s.pc)
  | some v => .next ((s.setX rd v).setPc (nextWord s.pc))

/-- `lw $t, imm($s)` (R151). With t = 0 the read still happens, and may still fault. -/
def execLw (rs rt : Reg) (imm : Int) (s : State) : Answer :=
  match s.memRead (effectiveAddress (s.x rs) imm) with
  | none   => raise (.outOfBoundsMemoryAccess s.site (effectiveAddress (s.x rs) imm))
  | some v => .next (s.setX rt v)

/-- `sw $t, imm($s)` (R152): stores the word, or emits it when the address is OUTPUT_ADDR. -/
def execSw (rs rt : Reg) (imm : Int) (s : State) : Answer :=
  match s.memWrite (effectiveAddress (s.x rs) imm) (s.x rt) with
  | none    => raise (.outOfBoundsMemoryAccess s.site (effectiveAddress (s.x rs) imm))
  | some s' => .next s'

end Machine
end Sys2Proof
end

