-- ==== Sys2Proof/Machine/MulDiv.lean ====
section
/-! DEFINITION. mult, multu, div, divu, mfhi, mflo (spec 41_muldiv.md R120..R127). PC already holds npc and
stays so. -/

namespace Sys2Proof
namespace Machine

/-- The upper and lower 32 bits of the 64-bit two's-complement pattern of an exact product (R120, R121, R124). -/
def State.setProduct (s : State) (p : Int) : State :=
  let pattern : BitVec 64 := BitVec.ofInt 64 p
  s.setHiLo (pattern.extractLsb' 32 32) (pattern.extractLsb' 0 32)

/-- `mult $s, $t` (R120). -/
def execMult (rs rt : Reg) (s : State) : Answer :=
  .next (s.setProduct ((s.x rs).toInt * (s.x rt).toInt))

/-- `multu $s, $t` (R121). -/
def execMultu (rs rt : Reg) (s : State) : Answer :=
  .next (s.setProduct ((s.x rs).toNat * (s.x rt).toNat))

/-- `div $s, $t` (R122): LO gets the quotient rounded toward zero and HI the remainder, which takes the sign
of the dividend. A fault writes neither. -/
def execDiv (rs rt : Reg) (s : State) : Answer :=
  if (s.x rt).toInt = 0 then raise (.divideByZero s.site)
  else if divOverflows (s.x rs) (s.x rt) ∧ s.cfg.divOverflow = .fault then raise (.divideOverflow s.site)
  else .next (s.setHiLo (wrap32 (Int.tmod (s.x rs).toInt (s.x rt).toInt))
    (wrap32 (Int.tdiv (s.x rs).toInt (s.x rt).toInt)))

/-- `divu $s, $t` (R123): LO gets the quotient and HI the remainder. A fault writes neither. -/
def execDivu (rs rt : Reg) (s : State) : Answer :=
  if (s.x rt).toNat = 0 then raise (.divideByZero s.site)
  else .next (s.setHiLo (wrap32 ((s.x rs).toNat % (s.x rt).toNat : Nat))
    (wrap32 ((s.x rs).toNat / (s.x rt).toNat : Nat)))

/-- `mfhi $d` (R126). -/
def execMfhi (rd : Reg) (s : State) : Answer := .next (s.setX rd s.hi)

/-- `mflo $d` (R127). -/
def execMflo (rd : Reg) (s : State) : Answer := .next (s.setX rd s.lo)

end Machine
end Sys2Proof
end

