-- ==== Sys2Proof/Machine/RunLoop.lean ====
section
/-! DEFINITION. The engine's step and the run loop around it (spec 30_encoding.md R83..R85; 60_exceptions.md
R210, R220..R225). Step.lean's `step` is one iteration of this loop (log entry 9). -/

namespace Sys2Proof
namespace Machine

/-! ## One engine step (R85) -/

/-- `step()`: fetch at PC, advance PC, decode, dispatch. A failing fetch leaves PC where it was and an
unknown word is reported with the fetch address (R83, R84, R201, R202). -/
def engineStep (s : State) : Answer :=
  match s.memRead s.pc with
  | none   => raise (.outOfBoundsMemoryAccess ⟨s.pc, none, s.steps⟩ s.pc)
  | some w =>
    match decode w with
    | .error _ => raise (.unknownInstruction ⟨s.pc, some w, s.steps⟩)
    | .ok i    => exec i (s.setPc (nextWord s.pc))

/-! ## The bookkeeping after a completed step (R221, R222) -/

/-- The smaller of two words, unsigned (R221, D12). -/
def minWord (a b : Word) : Word := if a.toNat ≤ b.toNat then a else b

/-- The larger of two words, unsigned (R221, D12). -/
def maxWord (a b : Word) : Word := if a.toNat ≤ b.toNat then b else a

/-- MARKS after one more sample of the stack and heap pointers (R221). The first sample is its own minimum
and maximum (R34). -/
def sampleMarks (m : Option Marks) (sp hp : Word) : Marks :=
  match m with
  | none   => ⟨sp, sp, hp, hp⟩
  | some k => ⟨minWord k.spMin sp, maxWord k.spMax sp, minWord k.hpMin hp, maxWord k.hpMax hp⟩

/-- STEPS <- STEPS + 1 and the new MARKS (R221, R222). -/
def State.counted (s : State) : State :=
  { s with steps := s.steps + 1, marks := some (sampleMarks s.marks (s.x spReg) (s.x hpReg)) }

/-- The heap pointer exceeds the stack pointer, compared unsigned (R221, D12). -/
def State.collides (s : State) : Bool := lessUnsigned (s.x spReg) (s.x hpReg)

/-- What the run loop does with a step that completed without fault: count it, sample, check for a
StackHeapCollision (R221, R222). `f` and `w` are the fetch address and word of that step (R203, R207). -/
def afterStep (f : Word) (w : Option Word) (s : State) : Answer :=
  if s.collides then raise (.stackHeapCollision ⟨f, w, s.steps + 1⟩ (s.x hpReg) (s.x spReg))
  else .next s.counted

/-! ## The loop (R220) -/

/-- One iteration of the run loop: the halt test before any fetch, then a step and the bookkeeping after it.
An ended run stays as it is: no further step is taken (R206, R225; log entry 9). -/
def iterate (s : State) : Answer :=
  match s.status with
  | .running =>
    if s.pc = s.cfg.sentinel then .next { s with status := .halted }
    else
      match engineStep s with
      | .next s'   => afterStep s.pc (s.memRead s.pc) s'
      | .fault r   => .fault r
      | .refused r => .refused r
  | .halted    => .next s
  | .faulted _ => .next s

/-- `run()` for at most `k` iterations (R220). A raised fault becomes the status Faulted (R206). -/
def runLoop : Nat → State → State
  | 0, s     => s
  | k + 1, s =>
    match iterate s with
    | .next s'   => runLoop k s'
    | .fault r   => s.fail r
    | .refused _ => s

/-! ## The report at the end (R223, R226) -/

/-- What the host may read of an ended run. -/
inductive Report where
  /-- After a normal end: STEPS, MARKS, the register file, which is the 32 GPRs, PC, HI and LO (R22, R34, R223), and
  OUT (R226). -/
  | halted (steps : Nat) (marks : Option Marks) (gpr : Vector Word 32) (pc hi lo : Word) (out : List Word)
  /-- After a fault: the fault record only (R206, R226). -/
  | faulted (r : Fault)
  deriving DecidableEq, Repr

/-- The report of an ended run; none while it runs (R223, R225, R226). The GPRs are given as they read, GPR 0 as
zero (R21). -/
def State.report (s : State) : Option Report :=
  match s.status with
  | .running   => none
  | .halted    => some (.halted s.steps s.marks (Vector.ofFn s.x) s.pc s.hi s.lo s.out)
  | .faulted r => some (.faulted r)

end Machine
end Sys2Proof
end

