-- ==== Sys2Proof/Machine/Step.lean ====
section
/-! DEFINITION. The one step of the machine, an iteration of the run loop of RunLoop.lean (log entry 9), and the
placing of an instruction where it fetches next. -/

namespace Sys2Proof
namespace Machine

/-- One step: an iteration of the run loop (R220). -/
def step (s : State) : Host.Outcome State Fault Refusal := iterate s

/-- `s` with the instruction whose bits are `w` stored at PC, where the next step fetches (R83), and with the
run going on, which the fetch needs (R220). The bytes beyond the instruction's own are zero. It stands for the load of
a program from outside the machine (log entry 6). -/
def State.withFetchWord (s : State) (nbits w : Nat) : State :=
  { s with status := .running }.placeBytes s.pc.toNat (tableBytes nbits w)

end Machine
end Sys2Proof
end

