-- ==== Sys2Proof/Machine/Diagnostics.lean ====
section
/-! DEFINITION. The stack and heap chunk walkers: host-side, read-only reports over a state (spec 60_exceptions.md
R224; 20_memory.md R61). No step reads them (log entry 12). -/

namespace Sys2Proof
namespace Machine

/-- One emitted line: a word of a chunk and its address. -/
abbrev DiagLine := Nat × Word

end Machine

/-- A free value: the lines a walker emits from a malformed chunk on, which are garbled and not faulting (R224, U6), and
those of a walk that starts past its boundary, of which the spec says nothing.
Its arguments are memory and the address of the chunk (log entry 12). -/
opaque Config.garbledLines : Machine.Memory → Nat → List Machine.DiagLine

namespace Machine

/-- The `n` words from `a` on, one line each. -/
def chunkLines (m : Memory) : Nat → Nat → List DiagLine
  | _, 0     => []
  | a, n + 1 => (a, m.readWord a) :: chunkLines m (a + 4) n

/-- The chunk at `a` is one its header can be trusted on, in a walk up to `bound`: the header lies in memory, and
its length is a whole number of words, the header included, that ends at or before `bound` and inside memory (R61). -/
def wellFormedChunk (m : Memory) (size a bound : Nat) : Bool :=
  decide (a + 4 ≤ size ∧ 4 ≤ (m.readWord a).toNat ∧ (m.readWord a).toNat % 4 = 0 ∧
    a + (m.readWord a).toNat ≤ bound ∧ a + (m.readWord a).toNat ≤ size)

/-- The walk from `a` up to `bound`: for each chunk one line for every word after its header (R224). `fuel` bounds
the number of chunks. DESIGN CHOICE (log entry 12): the spec does not say what a walk emits that starts past its
boundary; no chunk there is well formed, so its lines are the free value too. -/
def walkChunks (m : Memory) (size bound : Nat) : Nat → Nat → List DiagLine
  | 0, _        => []
  | fuel + 1, a =>
    if a = bound then []
    else if wellFormedChunk m size a bound then
      chunkLines m (a + 4) ((m.readWord a).toNat / 4 - 1) ++
        walkChunks m size bound fuel (a + (m.readWord a).toNat)
    else Config.garbledLines m a

/-- The stack walk, from x[30] up to STACK_TOP (R224). A chunk is at least 4 bytes long, so `bound` chunks are enough. With
x[30] above STACK_TOP the lines are free (log entry 12). -/
def State.stackWalk (s : State) : List DiagLine :=
  walkChunks s.mem s.cfg.memSize.val s.cfg.stackTop.toNat (s.cfg.stackTop.toNat + 1) (s.x spReg).toNat

/-- The heap walk, from HEAP_ORIGIN up to x[28] (R224). With HEAP_ORIGIN above x[28] the lines are free (log entry
12). -/
def State.heapWalk (s : State) : List DiagLine :=
  walkChunks s.mem s.cfg.memSize.val (s.x hpReg).toNat ((s.x hpReg).toNat + 1) s.cfg.heapOrigin.toNat

/-- The snapshot produced before a run aborts with UnknownInstruction: the stack walk and the heap walk over the state
the step began in, whose registers and memory an unknown word does not touch (R201, R224). No other answer has one. -/
def State.snapshot (s : State) : Option (List DiagLine × List DiagLine) :=
  match step s with
  | .fault (.unknownInstruction _) => some (s.stackWalk, s.heapWalk)
  | .next _ | .fault _ | .refused _ => none

end Machine
end Sys2Proof
end

