-- ==== Sys2Proof/Machine/Launch.lean ====
section
/-! DEFINITION. Building the start state of a run from the launch inputs (spec 70_reset_and_hazards.md R240, R241;
60_exceptions.md R226, R227). -/

namespace Sys2Proof
namespace Machine

/-- All 32 GPRs, PC, HI and LO at zero, the image at address 0 and zeros after it, nothing run yet (R240 steps
1 and 2). -/
def State.blank (cfg : Config) (image : List Byte) : State where
  cfg    := cfg
  gpr    := Vector.replicate 32 0
  pc     := 0
  hi     := 0
  lo     := 0
  mem    := Memory.ofBytes 0 image
  out    := []
  status := .running
  steps  := 0
  marks  := none

/-- The caller's seeds, each an ordinary register write, so a seed of GPR 0 has no effect (R240 step 3, D16). -/
def State.seeded (s : State) : List (Reg × Word) → State
  | []              => s
  | (i, v) :: seeds => State.seeded (s.setX i v) seeds

/-- Reset with the launch inputs, in the order of R240: memory, registers, seeds, and then SENTINEL into GPR 31
over any seed of it. `memSize` is MEM_SIZE, and the other parameters come from `params`. Without an image, or
with a size or an image out of range, there is no run (R8, R227; U11, U13). -/
def launch (memSize : Nat) (params : Config) (image : Option (List Byte)) (seeds : List (Reg × Word)) :
    Except Refusal State :=
  match image with
  | none       => .error .imageMissing
  | some bytes =>
    if h : memSize < maxMemSize + 1 then
      if bytes.length ≤ memSize then
        .ok (((State.blank { params with memSize := ⟨memSize, h⟩ } bytes).seeded seeds).setX linkReg params.sentinel)
      else .error .imageTooLong
    else .error .memorySizeOutOfRange

end Machine
end Sys2Proof
end

