-- ==== Sys2Proof/Safety.lean ====
section
/-! DEFINITION. What claims are stated in: the invariant of the machine, the frames of an instruction, and what a
safe run is. -/

namespace Sys2Proof
namespace Machine

/-! ## The invariant -/

/-- MARKS bound the last sample (R32, R221). -/
def Marks.bound (k : Marks) (sp hp : Word) : Prop :=
  k.spMin.toNat ≤ sp.toNat ∧ sp.toNat ≤ k.spMax.toNat ∧ k.hpMin.toNat ≤ hp.toNat ∧ hp.toNat ≤ k.hpMax.toNat

/-- What holds at reset and after every step.

* memory is in its canonical form and holds no byte beyond MEM_SIZE (R40, R42);
* the slot of GPR 0 holds zero (R21);
* no sample has been taken exactly when no step has completed (R34, R221, R222);
* a sample bounds the stack and heap pointers as they stand (R32, R221);
* once a step has completed, the heap pointer does not exceed the stack pointer (R221). -/
structure State.Inv (s : State) : Prop where
  memCanonical   : s.mem.wf
  memWithin      : s.mem.within s.cfg.memSize.val
  gprZero        : s.gpr[0] = 0
  marksSampled   : s.marks = none ↔ s.steps = 0
  marksBound     : ∀ k, s.marks = some k → k.bound (s.x spReg) (s.x hpReg)
  heapBelowStack : s.steps ≠ 0 → (s.x hpReg).toNat ≤ (s.x spReg).toNat

/-! ## Frames -/

/-- The parameters and the run loop's state are as before; no instruction writes them (R20, R41). -/
def RunStateKept (s s' : State) : Prop :=
  s'.cfg = s.cfg ∧ s'.status = s.status ∧ s'.steps = s.steps ∧ s'.marks = s.marks

/-- Every general register reads as before. -/
def GprsKept (s s' : State) : Prop := ∀ r, s'.x r = s.x r

/-- Register `d` reads `v`, or zero if it is GPR 0, and every other register reads as before (R21). -/
def OnlyGprWritten (s s' : State) (d : Reg) (v : Word) : Prop :=
  (d ≠ 0 → s'.x d = v) ∧ s'.x 0 = 0 ∧ ∀ r, r ≠ d → s'.x r = s.x r

/-- HI and LO are as before. -/
def HiLoKept (s s' : State) : Prop := s'.hi = s.hi ∧ s'.lo = s.lo

/-- Every byte of memory reads as before, and no word is emitted. -/
def MemoryKept (s s' : State) : Prop := (∀ a, s'.mem.read a = s.mem.read a) ∧ s'.out = s.out

/-! ## Runs -/

/-- The run is going on and the next iteration fetches (R220). -/
def State.fetches (s : State) : Prop := s.status = .running ∧ s.pc ≠ s.cfg.sentinel

/-- The run from `s` ends normally (R225). -/
def EndsNormally (s : State) : Prop := ∃ k, (runLoop k s).status = .halted

/-- The run from `s` never faults. A hang is safe in this sense, and is no normal end (R225, U12). -/
def NeverFaults (s : State) : Prop := ∀ k r, (runLoop k s).status ≠ .faulted r

/-! ## Chunks -/

/-- From `a` on, memory holds one chunk after another, with the given numbers of words after their headers: each header
is the chunk's length in bytes, itself included (R61). -/
def ChunksFrom (m : Memory) : Nat → List Nat → Prop
  | _, []      => True
  | a, n :: ns => (m.readWord a).toNat = 4 * (n + 1) ∧ ChunksFrom m (a + 4 * (n + 1)) ns

/-- The bytes that such chunks take. -/
def chunksSize (ns : List Nat) : Nat := (ns.map (fun n => 4 * (n + 1))).sum

/-- The words of such chunks with their addresses, headers left out, in rising order. -/
def chunkWords (m : Memory) : Nat → List Nat → List DiagLine
  | _, []      => []
  | a, n :: ns =>
    (List.range n).map (fun k => (a + 4 + 4 * k, m.readWord (a + 4 + 4 * k))) ++ chunkWords m (a + 4 * (n + 1)) ns

end Machine
end Sys2Proof
end

