-- ==== Sys2Proof/Certificates/Slice0/Obligations.lean ====
section
/-! DEFINITION. The statements for the provers. `R<n>` is a numbered rule of spec/. In a statement about `exec`, PC
holds npc, the fetch address plus 4 (R22, R84), so the fetch address is `s.pc - 4`. -/

open Sys2Proof Sys2Proof.Machine

/-! ## Arithmetic and compare (40_arith_compare.md) -/

/-- R100: `add` writes wrap32(s(x[s]) + s(x[t])) to GPR d, never faults, and changes nothing else. -/
def Obligations.AddWritesWrappedSum : Prop :=
  ∀ (rs rt rd : Reg) (s : State),
    decode (0#6 ++ regBits rs ++ regBits rt ++ regBits rd ++ 0x020#11) = .ok (.add rs rt rd) ∧
    ∃ s', exec (.add rs rt rd) s = .next s' ∧
      OnlyGprWritten s s' rd (wrap32 ((s.x rs).toInt + (s.x rt).toInt)) ∧
      s'.pc = s.pc ∧ HiLoKept s s' ∧ MemoryKept s s' ∧ RunStateKept s s'

/-- R101: `sub` writes wrap32(s(x[s]) - s(x[t])) to GPR d, never faults, and changes nothing else. -/
def Obligations.SubWritesWrappedDifference : Prop :=
  ∀ (rs rt rd : Reg) (s : State),
    decode (0#6 ++ regBits rs ++ regBits rt ++ regBits rd ++ 0x022#11) = .ok (.sub rs rt rd) ∧
    ∃ s', exec (.sub rs rt rd) s = .next s' ∧
      OnlyGprWritten s s' rd (wrap32 ((s.x rs).toInt - (s.x rt).toInt)) ∧
      s'.pc = s.pc ∧ HiLoKept s s' ∧ MemoryKept s s' ∧ RunStateKept s s'

/-- R102: `slt` writes 1 to GPR d if x[s] is less than x[t] as signed words and 0 otherwise, never faults, and changes
nothing else. -/
def Obligations.SltWritesSignedComparison : Prop :=
  ∀ (rs rt rd : Reg) (s : State),
    decode (0#6 ++ regBits rs ++ regBits rt ++ regBits rd ++ 0x02A#11) = .ok (.slt rs rt rd) ∧
    ∃ s', exec (.slt rs rt rd) s = .next s' ∧
      OnlyGprWritten s s' rd (if (s.x rs).toInt < (s.x rt).toInt then 0x00000001 else 0x00000000) ∧
      s'.pc = s.pc ∧ HiLoKept s s' ∧ MemoryKept s s' ∧ RunStateKept s s'

/-- R103: `sltu` writes 1 to GPR d if x[s] is less than x[t] as unsigned words and 0 otherwise, never faults, and
changes nothing else. -/
def Obligations.SltuWritesUnsignedComparison : Prop :=
  ∀ (rs rt rd : Reg) (s : State),
    decode (0#6 ++ regBits rs ++ regBits rt ++ regBits rd ++ 0x02B#11) = .ok (.sltu rs rt rd) ∧
    ∃ s', exec (.sltu rs rt rd) s = .next s' ∧
      OnlyGprWritten s s' rd (if (s.x rs).toNat < (s.x rt).toNat then 0x00000001 else 0x00000000) ∧
      s'.pc = s.pc ∧ HiLoKept s s' ∧ MemoryKept s s' ∧ RunStateKept s s'

/-- R10, R104: wrap32 reduces modulo 2^32, and the sum and the difference of two words are the same word whether the
operands are read as signed or as unsigned. -/
def Obligations.SignedAndUnsignedSumsAgree : Prop :=
  (∀ n : Int, ((wrap32 n).toNat : Int) = n % 2 ^ 32) ∧
  ∀ a b : Word,
    wrap32 (a.toInt + b.toInt) = wrap32 ((a.toNat : Int) + (b.toNat : Int)) ∧
    wrap32 (a.toInt - b.toInt) = wrap32 ((a.toNat : Int) - (b.toNat : Int))

/-! ## Multiply, divide and the accumulator pair (41_muldiv.md) -/

/-- R120: `mult` leaves in HI:LO the exact signed product of x[s] and x[t], whatever the ignored field d holds, never
faults, and changes nothing else. -/
def Obligations.MultWritesSignedProduct : Prop :=
  ∀ (rs rt d : Reg) (s : State),
    decode (0#6 ++ regBits rs ++ regBits rt ++ regBits d ++ 0x018#11) = .ok (.mult rs rt) ∧
    ∃ s', exec (.mult rs rt) s = .next s' ∧
      (s'.hi ++ s'.lo).toInt = (s.x rs).toInt * (s.x rt).toInt ∧
      GprsKept s s' ∧ s'.pc = s.pc ∧ MemoryKept s s' ∧ RunStateKept s s'

/-- R121: `multu` leaves in HI:LO the exact unsigned product of x[s] and x[t], whatever the ignored field d holds, never
faults, and changes nothing else. -/
def Obligations.MultuWritesUnsignedProduct : Prop :=
  ∀ (rs rt d : Reg) (s : State),
    decode (0#6 ++ regBits rs ++ regBits rt ++ regBits d ++ 0x019#11) = .ok (.multu rs rt) ∧
    ∃ s', exec (.multu rs rt) s = .next s' ∧
      (s'.hi ++ s'.lo).toNat = (s.x rs).toNat * (s.x rt).toNat ∧
      GprsKept s s' ∧ s'.pc = s.pc ∧ MemoryKept s s' ∧ RunStateKept s s'

/-- R122: `div` raises DivideByZero on a zero divisor, DivideOverflow on -2^31 by -1 under DIV_OVERFLOW = fault, and
otherwise writes the quotient rounded toward zero to LO and the remainder to HI and changes nothing else. Under
DIV_OVERFLOW = wrap, -2^31 by -1 gives LO = 0x80000000 and HI = 0. -/
def Obligations.DivWritesQuotientAndRemainder : Prop :=
  ∀ (rs rt d : Reg) (s : State),
    decode (0#6 ++ regBits rs ++ regBits rt ++ regBits d ++ 0x01A#11) = .ok (.div rs rt) ∧
    (s.x rt = 0 → ∃ site, exec (.div rs rt) s = .fault (.divideByZero site) ∧ site.f = s.pc - 4#32) ∧
    (s.x rs = 0x80000000#32 → s.x rt = 0xFFFFFFFF#32 → s.cfg.divOverflow = .fault →
      ∃ site, exec (.div rs rt) s = .fault (.divideOverflow site) ∧ site.f = s.pc - 4#32) ∧
    (s.x rt ≠ 0 → ¬ (s.x rs = 0x80000000#32 ∧ s.x rt = 0xFFFFFFFF#32 ∧ s.cfg.divOverflow = .fault) →
      ∃ s', exec (.div rs rt) s = .next s' ∧
        s'.lo = wrap32 (Int.tdiv (s.x rs).toInt (s.x rt).toInt) ∧
        s'.hi = wrap32 ((s.x rs).toInt - (s.x rt).toInt * Int.tdiv (s.x rs).toInt (s.x rt).toInt) ∧
        (s.x rs = 0x80000000#32 → s.x rt = 0xFFFFFFFF#32 → s'.lo = 0x80000000#32 ∧ s'.hi = 0) ∧
        GprsKept s s' ∧ s'.pc = s.pc ∧ MemoryKept s s' ∧ RunStateKept s s')

/-- R123: `divu` raises DivideByZero on a zero divisor, and otherwise writes the unsigned quotient to LO and the
remainder to HI and changes nothing else. -/
def Obligations.DivuWritesQuotientAndRemainder : Prop :=
  ∀ (rs rt d : Reg) (s : State),
    decode (0#6 ++ regBits rs ++ regBits rt ++ regBits d ++ 0x01B#11) = .ok (.divu rs rt) ∧
    (s.x rt = 0 → ∃ site, exec (.divu rs rt) s = .fault (.divideByZero site) ∧ site.f = s.pc - 4#32) ∧
    (s.x rt ≠ 0 →
      ∃ s', exec (.divu rs rt) s = .next s' ∧
        s'.lo.toNat = (s.x rs).toNat / (s.x rt).toNat ∧
        s'.hi.toNat = (s.x rs).toNat % (s.x rt).toNat ∧
        GprsKept s s' ∧ s'.pc = s.pc ∧ MemoryKept s s' ∧ RunStateKept s s')

/-- R124: after every `div` that completes, LO·x[t] + HI = x[s] modulo 2^32. Where the quotient fits in a signed word the
law holds over the integers, the remainder is smaller than the divisor in magnitude, and it is zero or has the sign of
the dividend. -/
def Obligations.DivisionLaw : Prop :=
  ∀ (rs rt : Reg) (s s' : State), exec (.div rs rt) s = .next s' →
    wrap32 (s'.lo.toInt * (s.x rt).toInt + s'.hi.toInt) = s.x rs ∧
    (¬ (s.x rs = 0x80000000#32 ∧ s.x rt = 0xFFFFFFFF#32) →
      s'.lo.toInt * (s.x rt).toInt + s'.hi.toInt = (s.x rs).toInt ∧
      s'.hi.toInt.natAbs < (s.x rt).toInt.natAbs ∧
      (s'.hi.toInt = 0 ∨ (s'.hi.toInt < 0 ↔ (s.x rs).toInt < 0)))

/-- R126: `mfhi` copies HI to GPR d, whatever the ignored fields hold, never faults, and changes nothing else. -/
def Obligations.MfhiCopiesHi : Prop :=
  ∀ (rs rt rd : Reg) (s : State),
    decode (0#6 ++ regBits rs ++ regBits rt ++ regBits rd ++ 0x010#11) = .ok (.mfhi rd) ∧
    ∃ s', exec (.mfhi rd) s = .next s' ∧
      OnlyGprWritten s s' rd s.hi ∧
      s'.pc = s.pc ∧ HiLoKept s s' ∧ MemoryKept s s' ∧ RunStateKept s s'

/-- R127: `mflo` copies LO to GPR d, whatever the ignored fields hold, never faults, and changes nothing else. -/
def Obligations.MfloCopiesLo : Prop :=
  ∀ (rs rt rd : Reg) (s : State),
    decode (0#6 ++ regBits rs ++ regBits rt ++ regBits rd ++ 0x012#11) = .ok (.mflo rd) ∧
    ∃ s', exec (.mflo rd) s = .next s' ∧
      OnlyGprWritten s s' rd s.lo ∧
      s'.pc = s.pc ∧ HiLoKept s s' ∧ MemoryKept s s' ∧ RunStateKept s s'

/-- R24, R125: no instruction but mult, multu, div and divu writes HI or LO. -/
def Obligations.OnlyMulDivWriteHiLo : Prop :=
  ∀ (i : Instr) (s s' : State),
    (∀ rs rt, i ≠ .mult rs rt ∧ i ≠ .multu rs rt ∧ i ≠ .div rs rt ∧ i ≠ .divu rs rt) →
    exec i s = .next s' → HiLoKept s s'

/-- R24: no instruction but mfhi and mflo reads HI or LO: with any other pair in them it does the same to everything
else, and the pair it leaves is the one it leaves without that change where it writes the pair (mult, multu, div, divu),
and the changed pair where it does not. -/
def Obligations.OnlyMovesReadHiLo : Prop :=
  ∀ (i : Instr) (s s' : State) (h l : Word),
    (∀ rd, i ≠ .mfhi rd ∧ i ≠ .mflo rd) → exec i s = .next s' →
    ∃ t, exec i (s.setHiLo h l) = .next t ∧
      t.gpr = s'.gpr ∧ t.pc = s'.pc ∧ t.mem = s'.mem ∧ t.out = s'.out ∧ RunStateKept s' t ∧
      match i with
      | .mult _ _ | .multu _ _ | .div _ _ | .divu _ _ => t.hi = s'.hi ∧ t.lo = s'.lo
      | _ => t.hi = h ∧ t.lo = l

/-! ## Literal load, load word and store word (42_literal_load_store.md, 20_memory.md) -/

/-- R150: `lis` loads the literal word at npc into GPR d and leaves PC at npc + 4, whatever the ignored fields hold, and
changes nothing else. A literal not wholly inside memory raises OutOfBoundsMemoryAccess, with GPR 0 as destination
too. -/
def Obligations.LisLoadsLiteralAndSkipsIt : Prop :=
  ∀ (rs rt rd : Reg) (s : State),
    decode (0#6 ++ regBits rs ++ regBits rt ++ regBits rd ++ 0x014#11) = .ok (.lis rd) ∧
    (s.pc.toNat + 3 < s.cfg.memSize.val →
      ∃ s', exec (.lis rd) s = .next s' ∧
        OnlyGprWritten s s' rd (s.mem.read (s.pc.toNat + 3) ++ s.mem.read (s.pc.toNat + 2) ++
          s.mem.read (s.pc.toNat + 1) ++ s.mem.read s.pc.toNat) ∧
        s'.pc = s.pc + 4#32 ∧ HiLoKept s s' ∧ MemoryKept s s' ∧ RunStateKept s s') ∧
    (s.cfg.memSize.val ≤ s.pc.toNat + 3 →
      ∃ site, exec (.lis rd) s = .fault (.outOfBoundsMemoryAccess site s.pc) ∧ site.f = s.pc - 4#32)

/-- R151, R153: `lw` loads the word at wrap32(s(x[s]) + s(imm)), at any alignment, into GPR t and changes nothing else. A
word not wholly inside memory raises OutOfBoundsMemoryAccess, with GPR 0 as destination too. -/
def Obligations.LwLoadsWord : Prop :=
  ∀ (rs rt : Reg) (v : BitVec 16) (s : State),
    let ea := wrap32 ((s.x rs).toInt + v.toInt)
    decode (0x23#6 ++ regBits rs ++ regBits rt ++ v) = .ok (.lw rs rt v.toInt) ∧
    (ea.toNat + 3 < s.cfg.memSize.val →
      ∃ s', exec (.lw rs rt v.toInt) s = .next s' ∧
        OnlyGprWritten s s' rt (s.mem.read (ea.toNat + 3) ++ s.mem.read (ea.toNat + 2) ++
          s.mem.read (ea.toNat + 1) ++ s.mem.read ea.toNat) ∧
        s'.pc = s.pc ∧ HiLoKept s s' ∧ MemoryKept s s' ∧ RunStateKept s s') ∧
    (s.cfg.memSize.val ≤ ea.toNat + 3 →
      ∃ site, exec (.lw rs rt v.toInt) s = .fault (.outOfBoundsMemoryAccess site ea) ∧ site.f = s.pc - 4#32)

/-- R152, R153: `sw` at OUTPUT_ADDR emits the word and leaves memory alone; elsewhere it stores the word's four bytes,
least significant first, at any alignment, and leaves every other byte alone. A word not wholly inside memory, at
another address than OUTPUT_ADDR, raises OutOfBoundsMemoryAccess. No register changes. -/
def Obligations.SwStoresOrEmitsWord : Prop :=
  ∀ (rs rt : Reg) (v : BitVec 16) (s : State),
    let ea := wrap32 ((s.x rs).toInt + v.toInt)
    decode (0x2B#6 ++ regBits rs ++ regBits rt ++ v) = .ok (.sw rs rt v.toInt) ∧
    (ea = s.cfg.outputAddr →
      ∃ s', exec (.sw rs rt v.toInt) s = .next s' ∧
        s'.out = s.out ++ [s.x rt] ∧ (∀ a, s'.mem.read a = s.mem.read a) ∧
        GprsKept s s' ∧ s'.pc = s.pc ∧ HiLoKept s s' ∧ RunStateKept s s') ∧
    (ea ≠ s.cfg.outputAddr → ea.toNat + 3 < s.cfg.memSize.val →
      ∃ s', exec (.sw rs rt v.toInt) s = .next s' ∧
        s'.mem.read ea.toNat = (s.x rt).extractLsb' 0 8 ∧
        s'.mem.read (ea.toNat + 1) = (s.x rt).extractLsb' 8 8 ∧
        s'.mem.read (ea.toNat + 2) = (s.x rt).extractLsb' 16 8 ∧
        s'.mem.read (ea.toNat + 3) = (s.x rt).extractLsb' 24 8 ∧
        (∀ a, a < ea.toNat ∨ ea.toNat + 3 < a → s'.mem.read a = s.mem.read a) ∧
        s'.out = s.out ∧ GprsKept s s' ∧ s'.pc = s.pc ∧ HiLoKept s s' ∧ RunStateKept s s') ∧
    (ea ≠ s.cfg.outputAddr → s.cfg.memSize.val ≤ ea.toNat + 3 →
      ∃ site, exec (.sw rs rt v.toInt) s = .fault (.outOfBoundsMemoryAccess site ea) ∧ site.f = s.pc - 4#32)

/-- R43: `MemRead` composes the four bytes from the address on, the lowest least significant, and faults when any of them
is outside the store; the byte indices do not wrap. -/
def Obligations.MemReadIsLittleEndianAndBounded : Prop :=
  ∀ (s : State) (addr : Word),
    (s.cfg.memSize.val ≤ addr.toNat + 3 → s.memRead addr = none) ∧
    (addr.toNat + 3 < s.cfg.memSize.val → ∃ w, s.memRead addr = some w ∧
      w.extractLsb' 0 8 = s.mem.read addr.toNat ∧ w.extractLsb' 8 8 = s.mem.read (addr.toNat + 1) ∧
      w.extractLsb' 16 8 = s.mem.read (addr.toNat + 2) ∧ w.extractLsb' 24 8 = s.mem.read (addr.toNat + 3))

/-- R44, R46, R53: `MemWrite` to OUTPUT_ADDR never faults, appends the word to OUT and touches no memory; a write to any
other address, one that overlaps the port's bytes too, stores four little-endian bytes if all are inside the store and
faults otherwise. -/
def Obligations.MemWriteStoresOrEmits : Prop :=
  ∀ (s : State) (addr v : Word),
    (addr = s.cfg.outputAddr → s.memWrite addr v = some { s with out := s.out ++ [v] }) ∧
    (addr ≠ s.cfg.outputAddr → s.cfg.memSize.val ≤ addr.toNat + 3 → s.memWrite addr v = none) ∧
    (addr ≠ s.cfg.outputAddr → addr.toNat + 3 < s.cfg.memSize.val →
      ∃ m, s.memWrite addr v = some { s with mem := m } ∧
        m.read addr.toNat = v.extractLsb' 0 8 ∧ m.read (addr.toNat + 1) = v.extractLsb' 8 8 ∧
        m.read (addr.toNat + 2) = v.extractLsb' 16 8 ∧ m.read (addr.toNat + 3) = v.extractLsb' 24 8 ∧
        ∀ a, a < addr.toNat ∨ addr.toNat + 3 < a → m.read a = s.mem.read a)

/-- R48, R47: a word read one byte above a stored word sees the store's upper three bytes and the byte above it. -/
def Obligations.OverlappingReadSeesStoredBytes : Prop :=
  ∀ (s s' : State) (addr v : Word),
    addr ≠ s.cfg.outputAddr → addr.toNat + 4 < s.cfg.memSize.val → s.memWrite addr v = some s' →
    s'.memRead (addr + 1#32) = some (s.mem.read (addr.toNat + 4) ++ v.extractLsb' 8 24)

/-- R56: a byte reads as the most recent write to it left it, and as it was where nothing has written it. -/
def Obligations.ByteReadsMostRecentWrite : Prop :=
  ∀ (writes : List (Nat × Byte)) (m : Memory) (a : Nat),
    (writes.foldl (fun m w => m.write w.1 w.2) m).read a =
      ((writes.reverse.find? (fun w => w.1 = a)).map Prod.snd).getD (m.read a)

/-- The model's canonical form of memory (its own choice of representation, log entry 14): two memories in it that read
alike at every address are equal. -/
def Obligations.CanonicalMemoriesReadingAlikeAreEqual : Prop :=
  ∀ m m' : Memory, m.wf → m'.wf → (∀ a, m.read a = m'.read a) → m = m'

/-- R59: a stored word is what the very next fetch from that address reads. -/
def Obligations.FetchSeesStoredWord : Prop :=
  ∀ (rs rt : Reg) (imm : Int) (s s' : State) (i : Instr),
    let ea := effectiveAddress (s.x rs) imm
    ea ≠ s.cfg.outputAddr → exec (.sw rs rt imm) s = .next s' → decode (s.x rt) = .ok i →
    engineStep (s'.setPc ea) = exec i (s'.setPc (ea + 4#32))

/-- R40: no instruction but sw changes memory or emits a word. -/
def Obligations.OnlySwChangesMemory : Prop :=
  ∀ (i : Instr) (s s' : State),
    (∀ rs rt imm, i ≠ .sw rs rt imm) → exec i s = .next s' → MemoryKept s s'

/-! ## Control transfer (43_control.md) -/

/-- R174, R181: `jr` writes x[s] to PC, whatever it is and whatever the ignored fields hold, never faults, and changes
nothing else. -/
def Obligations.JrJumpsToRegister : Prop :=
  ∀ (rs t d : Reg) (s : State),
    decode (0#6 ++ regBits rs ++ regBits t ++ regBits d ++ 0x008#11) = .ok (.jr rs) ∧
    ∃ s', exec (.jr rs) s = .next s' ∧ s'.pc = s.x rs ∧
      GprsKept s s' ∧ HiLoKept s s' ∧ MemoryKept s s' ∧ RunStateKept s s'

/-- R175, R176: `jalr` writes npc to GPR 31, whatever the ignored field d holds, and x[s] to PC. For s = 31 JALR_ORDER
decides: read_first jumps to the old GPR 31, link_first goes on at npc. It never faults and changes nothing else. -/
def Obligations.JalrLinksAndJumps : Prop :=
  ∀ (rs t d : Reg) (s : State),
    decode (0#6 ++ regBits rs ++ regBits t ++ regBits d ++ 0x009#11) = .ok (.jalr rs) ∧
    ∃ s', exec (.jalr rs) s = .next s' ∧ OnlyGprWritten s s' 31 s.pc ∧
      (rs ≠ 31 → s'.pc = s.x rs) ∧
      (rs = 31 → s.cfg.jalrOrder = .readFirst → s'.pc = s.x 31) ∧
      (rs = 31 → s.cfg.jalrOrder = .linkFirst → s'.pc = s.pc) ∧
      HiLoKept s s' ∧ MemoryKept s s' ∧ RunStateKept s s'

/-- R177, R179: `beq` goes to wrap32(u(npc) + 4·s(imm)) when x[s] = x[t] and to npc otherwise, never faults, and changes
nothing else. -/
def Obligations.BeqBranchesWhenEqual : Prop :=
  ∀ (rs rt : Reg) (v : BitVec 16) (s : State),
    decode (0x04#6 ++ regBits rs ++ regBits rt ++ v) = .ok (.beq rs rt v.toInt) ∧
    ∃ s', exec (.beq rs rt v.toInt) s = .next s' ∧
      (s.x rs = s.x rt → s'.pc = wrap32 ((s.pc.toNat : Int) + 4 * v.toInt)) ∧
      (s.x rs ≠ s.x rt → s'.pc = s.pc) ∧
      GprsKept s s' ∧ HiLoKept s s' ∧ MemoryKept s s' ∧ RunStateKept s s'

/-- R178, R179: `bne` goes to wrap32(u(npc) + 4·s(imm)) when x[s] ≠ x[t] and to npc otherwise, never faults, and changes
nothing else. -/
def Obligations.BneBranchesWhenDifferent : Prop :=
  ∀ (rs rt : Reg) (v : BitVec 16) (s : State),
    decode (0x05#6 ++ regBits rs ++ regBits rt ++ v) = .ok (.bne rs rt v.toInt) ∧
    ∃ s', exec (.bne rs rt v.toInt) s = .next s' ∧
      (s.x rs ≠ s.x rt → s'.pc = wrap32 ((s.pc.toNat : Int) + 4 * v.toInt)) ∧
      (s.x rs = s.x rt → s'.pc = s.pc) ∧
      GprsKept s s' ∧ HiLoKept s s' ∧ MemoryKept s s' ∧ RunStateKept s s'

/-- R22, and R176 for `jalr $31`: PC after each instruction that completes, PC holding npc before it. -/
def Obligations.PcAfterEachInstruction : Prop :=
  ∀ (i : Instr) (s s' : State), exec i s = .next s' →
    match i with
    | .add _ _ _ | .sub _ _ _ | .mult _ _ | .multu _ _ | .div _ _ | .divu _ _ | .mfhi _ | .mflo _
    | .slt _ _ _ | .sltu _ _ _ | .lw _ _ _ | .sw _ _ _ => s'.pc = s.pc
    | .lis _ => s'.pc = s.pc + 4#32
    | .jr rs => s'.pc = s.x rs
    | .jalr rs => s'.pc = if rs = 31 ∧ s.cfg.jalrOrder = .linkFirst then s.pc else s.x rs
    | .beq rs rt imm => s'.pc = if s.x rs = s.x rt then s.pc + BitVec.ofInt 32 (4 * imm) else s.pc
    | .bne rs rt imm => s'.pc = if s.x rs = s.x rt then s.pc else s.pc + BitVec.ofInt 32 (4 * imm)

/-- R23: only jr and jalr can change PC's residue modulo 4. -/
def Obligations.OnlyRegisterJumpsUnalignPc : Prop :=
  ∀ (i : Instr) (s s' : State),
    (∀ rs, i ≠ .jr rs ∧ i ≠ .jalr rs) → exec i s = .next s' → s'.pc.toNat % 4 = s.pc.toNat % 4

/-! ## Encoding (30_encoding.md) -/

/-- Decoding the word the encoder writes for a well-formed instruction gives the instruction back, with every operand. -/
def Obligations.DecodeEncodeRoundTrip : Prop :=
  ∀ i : Instr, i.wf = true → decode (encode i) = .ok i

/-- R76, R77: dispatch of every word, opcode 0 by the 11-bit key in bits 10..0 and any other opcode by bits 31..26, with
the operands cut from bits 25..21, 20..16, 15..11 and 15..0; anything else is no instruction. -/
def Obligations.DecodeFollowsDispatchTables : Prop :=
  ∀ w : Word,
    let s : Reg := (w.extractLsb' 21 5).toFin
    let t : Reg := (w.extractLsb' 16 5).toFin
    let d : Reg := (w.extractLsb' 11 5).toFin
    let func := w.extractLsb' 0 11
    let op := w.extractLsb' 26 6
    let imm := (w.extractLsb' 0 16).toInt
    (op = 0 →
      (func = 0x008#11 → decode w = .ok (.jr s)) ∧ (func = 0x009#11 → decode w = .ok (.jalr s)) ∧
      (func = 0x010#11 → decode w = .ok (.mfhi d)) ∧ (func = 0x012#11 → decode w = .ok (.mflo d)) ∧
      (func = 0x014#11 → decode w = .ok (.lis d)) ∧ (func = 0x018#11 → decode w = .ok (.mult s t)) ∧
      (func = 0x019#11 → decode w = .ok (.multu s t)) ∧ (func = 0x01A#11 → decode w = .ok (.div s t)) ∧
      (func = 0x01B#11 → decode w = .ok (.divu s t)) ∧ (func = 0x020#11 → decode w = .ok (.add s t d)) ∧
      (func = 0x022#11 → decode w = .ok (.sub s t d)) ∧ (func = 0x02A#11 → decode w = .ok (.slt s t d)) ∧
      (func = 0x02B#11 → decode w = .ok (.sltu s t d)) ∧
      (func ∉ [0x008#11, 0x009#11, 0x010#11, 0x012#11, 0x014#11, 0x018#11, 0x019#11, 0x01A#11, 0x01B#11, 0x020#11,
        0x022#11, 0x02A#11, 0x02B#11] → ∃ e, decode w = .error e)) ∧
    (op ≠ 0 →
      (op = 0x04#6 → decode w = .ok (.beq s t imm)) ∧ (op = 0x05#6 → decode w = .ok (.bne s t imm)) ∧
      (op = 0x23#6 → decode w = .ok (.lw s t imm)) ∧ (op = 0x2B#6 → decode w = .ok (.sw s t imm)) ∧
      (op ∉ [0x04#6, 0x05#6, 0x23#6, 0x2B#6] → ∃ e, decode w = .error e))

/-- R80: the table has seventeen rows, no word matches two of them, and a word is an instruction of a row exactly when
the word AND the row's mask is the row's match value. -/
def Obligations.WordIsInstructionExactlyInItsRow : Prop :=
  encTable.length = 17 ∧
  (∀ (w : Word), ∀ r ∈ encTable, ∀ r' ∈ encTable, w &&& r.mask = r.value → w &&& r'.mask = r'.value → r = r') ∧
  ∀ (w : Word), ∀ r ∈ encTable, (w &&& r.mask = r.value ↔ ∃ i, decode w = .ok i ∧ i.row = r)

/-- R75: bits of a register field that an instruction does not use do not matter: any word that decodes agrees with the
word its instruction encodes to after decoding, and what decodes is well formed. -/
def Obligations.DecodedWordsAreWellFormedAndReencode : Prop :=
  ∀ (w : Word) (i : Instr), decode w = .ok i → i.wf = true ∧ decode (encode i) = .ok i ∧
    encode i &&& i.row.mask = w &&& i.row.mask

/-- Words written out bit by bit from R80, and words that are no instruction (R74, R79). -/
def Obligations.WrittenOutWordsDecode : Prop :=
  decode 0b00000000001000100001100000100000#32 = .ok (.add 1 2 3) ∧
  decode 0b00000000001000100000000000011000#32 = .ok (.mult 1 2) ∧
  decode 0b00000000000000000010000000010100#32 = .ok (.lis 4) ∧
  decode 0b10001100001000111111111111111100#32 = .ok (.lw 1 3 (-4)) ∧
  decode 0b00010100001000001111111111111101#32 = .ok (.bne 1 0 (-3)) ∧
  decode 0b00000011111000000000000000001000#32 = .ok (.jr 31) ∧
  decode 0x00000000#32 = .error (.unknownFunction 0x000#11) ∧
  decode 0x00221860#32 = .error (.unknownFunction 0x060#11) ∧
  decode 0x08000000#32 = .error (.unknownOpcode 0x02#6)

/-! ## State (10_state.md) -/

/-- R21: register index 0 always reads as zero and a write to it is discarded without a fault; a write to any other
index is what that index then reads, and no other index changes. -/
def Obligations.GprZeroIsHardwired : Prop :=
  ∀ (s : State) (v : Word),
    s.x 0 = 0 ∧ s.setX 0 v = s ∧
    ∀ i : Reg, i ≠ 0 → (s.setX i v).x i = v ∧ ∀ j, j ≠ i → (s.setX i v).x j = s.x j

/-- R20: no instruction writes STATUS, STEPS, MARKS or a parameter. -/
def Obligations.InstructionsKeepRunState : Prop :=
  ∀ (i : Instr) (s s' : State), exec i s = .next s' → RunStateKept s s'

/-- R20, R29: a program cannot read OUT, STATUS, STEPS or MARKS: whatever they hold, an instruction does the same to the
registers, PC, HI, LO and memory, and emits the same words. -/
def Obligations.HostStateIsUnreadable : Prop :=
  ∀ (i : Instr) (s s' : State) (out : List Word) (st : Status) (n : Nat) (m : Option Marks),
    exec i s = .next s' →
    ∃ t emitted, exec i { s with out := out, status := st, steps := n, marks := m } = .next t ∧
      t.gpr = s'.gpr ∧ t.pc = s'.pc ∧ t.hi = s'.hi ∧ t.lo = s'.lo ∧ t.mem = s'.mem ∧
      s'.out = s.out ++ emitted ∧ t.out = out ++ emitted

/-- R29, R41: a step that answers a next state changes no parameter (MEM_SIZE among them) and appends at most one word
to OUT. -/
def Obligations.StepsKeepParametersAndOnlyAppendOutput : Prop :=
  ∀ s s' : State, step s = .next s' →
    s'.cfg = s.cfg ∧ (s'.out = s.out ∨ ∃ v, s'.out = s.out ++ [v])

/-! ## Faults (60_exceptions.md) -/

/-- R200: no instruction but lis, lw, sw, div and divu raises a fault; lis, lw and sw raise OutOfBoundsMemoryAccess only,
divu DivideByZero only, div DivideByZero or, under DIV_OVERFLOW = fault, DivideOverflow. No instruction is refused. -/
def Obligations.InstructionFaultsByKind : Prop :=
  ∀ (i : Instr) (s : State),
    (∀ r, exec i s ≠ .refused r) ∧
    ∀ r, exec i s = .fault r →
      match i with
      | .lis _ | .lw _ _ _ | .sw _ _ _ => r.code = 2
      | .divu _ _ => r.code = 4
      | .div _ _ => r.code = 4 ∨ (r.code = 5 ∧ s.cfg.divOverflow = .fault)
      | _ => False

/-- R85: in a running machine whose PC is not SENTINEL, when the word at PC decodes to i, the step is i on the state with
PC advanced by 4, then the run loop's bookkeeping: a fault of i ends the step, and a completed i is counted and sampled
and checked for a collision. -/
def Obligations.StepRunsDecodedInstruction : Prop :=
  ∀ (s : State) (w : Word) (i : Instr),
    s.status = .running → s.pc ≠ s.cfg.sentinel → s.memRead s.pc = some w → decode w = .ok i →
    (∀ r, exec i { s with pc := s.pc + 4#32 } = .fault r → step s = .fault r) ∧
    ∀ t, exec i { s with pc := s.pc + 4#32 } = .next t →
      ((t.x 28).toNat ≤ (t.x 30).toNat →
        step s = .next { t with steps := t.steps + 1, marks := some (sampleMarks t.marks (t.x 30) (t.x 28)) }) ∧
      ((t.x 30).toNat < (t.x 28).toNat →
        step s = .fault (.stackHeapCollision ⟨s.pc, some w, t.steps + 1⟩ (t.x 28) (t.x 30)))

/-- R210: the checks of one step in their order: PC = SENTINEL halts and nothing is fetched, even where the word at PC is
outside memory; then a fetch outside memory faults; then an unknown word; then the instruction's own fault; then the
collision, which is checked only after a step that completed. -/
def Obligations.StepChecksInOrder : Prop :=
  ∀ s : State, s.status = .running →
    (s.pc = s.cfg.sentinel → step s = .next { s with status := .halted }) ∧
    (s.pc ≠ s.cfg.sentinel →
      (s.cfg.memSize.val ≤ s.pc.toNat + 3 →
        step s = .fault (.outOfBoundsMemoryAccess ⟨s.pc, none, s.steps⟩ s.pc)) ∧
      ∀ w, s.memRead s.pc = some w →
        (∀ e, decode w = .error e → step s = .fault (.unknownInstruction ⟨s.pc, some w, s.steps⟩)) ∧
        ∀ i, decode w = .ok i →
          (∀ r, exec i { s with pc := s.pc + 4#32 } = .fault r → step s = .fault r) ∧
          ∀ t, exec i { s with pc := s.pc + 4#32 } = .next t →
            ((∃ r, step s = .fault r) ↔ (t.x 30).toNat < (t.x 28).toNat))

/-- R79, R201: a step that fetches a word raises UnknownInstruction, recording the fetch address and the word, exactly
when the word matches none of the seventeen rows. -/
def Obligations.UnknownInstructionExactlyOutsideTheTable : Prop :=
  ∀ (s : State) (w : Word), s.status = .running → s.pc ≠ s.cfg.sentinel → s.memRead s.pc = some w →
    ((∀ r ∈ encTable, w &&& r.mask ≠ r.value) ↔
      step s = .fault (.unknownInstruction ⟨s.pc, some w, s.steps⟩)) ∧
    ∀ site, step s = .fault (.unknownInstruction site) → site = ⟨s.pc, some w, s.steps⟩

/-- R207: what the record of a fault holds: the code of its reason (R200); the fetch address; the fetched word exactly
when the fetch succeeded; the access address for OutOfBoundsMemoryAccess, which is PC when the fetch itself failed, npc
for `lis` and the effective address for `lw` and `sw`; x[28] and x[30] after the completed step for StackHeapCollision;
and the steps completed before the fault, the completed one included for StackHeapCollision. -/
def Obligations.FaultRecordContents : Prop :=
  ∀ (s : State) (r : Fault), step s = .fault r →
    r.site.f = s.pc ∧ r.site.instr = s.memRead s.pc ∧
    match r with
    | .unknownInstruction site => r.code = 1 ∧ site.steps = s.steps
    | .outOfBoundsMemoryAccess site addr =>
        r.code = 2 ∧ site.steps = s.steps ∧ s.cfg.memSize.val ≤ addr.toNat + 3 ∧
        (s.memRead s.pc = none → addr = s.pc) ∧
        ∀ w i, s.memRead s.pc = some w → decode w = .ok i →
          match i with
          | .lis _ => addr = s.pc + 4#32
          | .lw rs _ imm | .sw rs _ imm => addr = wrap32 ((s.x rs).toInt + imm)
          | _ => False
    | .stackHeapCollision site hp sp =>
        r.code = 3 ∧ site.steps = s.steps + 1 ∧ ∃ t, engineStep s = .next t ∧ hp = t.x 28 ∧ sp = t.x 30
    | .divideByZero site => r.code = 4 ∧ site.steps = s.steps
    | .divideOverflow site => r.code = 5 ∧ site.steps = s.steps

/-! ## The run loop (60_exceptions.md) -/

/-- R221: when the engine's step completes without fault, the run loop takes the unsigned minimum and maximum of GPR 30
and of GPR 28 into MARKS, the first sample being both. Then it raises StackHeapCollision, with the step's fetch address
and the two values, if x[28] exceeds x[30] unsigned. If not, the step answers the completed state with one more step
counted (R222) and the new MARKS, and nothing else changed. -/
def Obligations.CompletedStepIsCountedSampledAndChecked : Prop :=
  ∀ s t : State, s.status = .running → s.pc ≠ s.cfg.sentinel → engineStep s = .next t →
    ((t.x 30).toNat < (t.x 28).toNat →
      step s = .fault (.stackHeapCollision ⟨s.pc, s.memRead s.pc, s.steps + 1⟩ (t.x 28) (t.x 30))) ∧
    ((t.x 28).toNat ≤ (t.x 30).toNat →
      ∃ k', step s = .next { t with steps := s.steps + 1, marks := some k' } ∧
        (s.marks = none → k' = ⟨t.x 30, t.x 30, t.x 28, t.x 28⟩) ∧
        ∀ k, s.marks = some k →
          k'.spMin.toNat = min k.spMin.toNat (t.x 30).toNat ∧ k'.spMax.toNat = max k.spMax.toNat (t.x 30).toNat ∧
          k'.hpMin.toNat = min k.hpMin.toNat (t.x 28).toNat ∧ k'.hpMax.toNat = max k.hpMax.toNat (t.x 28).toNat)

/-- R206, R225: no further step is taken once a run has ended. The model says it by a step that changes nothing (its own
choice of form, log entry 9). -/
def Obligations.EndedRunTakesNoStep : Prop :=
  ∀ (s : State), s.status ≠ .running → step s = .next s ∧ ∀ k, runLoop k s = s

/-- R220, R222, R225: a run that is halted after k iterations took some number n < k of steps, each completed, then found
PC = SENTINEL; STEPS has grown by n, and the halted state is the state after the last step. -/
def Obligations.NormalEndIsAtSentinelWithStepsCounted : Prop :=
  ∀ (s : State) (k : Nat), s.status = .running → (runLoop k s).status = .halted →
    ∃ n, n < k ∧ (runLoop n s).status = .running ∧ (runLoop n s).pc = s.cfg.sentinel ∧
      (∀ j, j < n → (runLoop j s).status = .running ∧ (runLoop j s).pc ≠ s.cfg.sentinel) ∧
      (runLoop n s).steps = s.steps + n ∧
      runLoop k s = { runLoop n s with status := .halted }

/-- R206, R225: a run that is faulted after k iterations took some number n < k of completed steps and then raised exactly
that fault; it stays faulted with that record for every larger k. -/
def Obligations.FaultedRunStopsAtItsFault : Prop :=
  ∀ (s : State) (k : Nat) (r : Fault), s.status = .running → (runLoop k s).status = .faulted r →
    ∃ n, n < k ∧ (runLoop n s).status = .running ∧ (runLoop n s).steps = s.steps + n ∧
      step (runLoop n s) = .fault r ∧ ∀ m, n < m → (runLoop m s).status = .faulted r

/-- R223: what the host reads of an ended run. After a normal end that is STEPS, MARKS, the register file (the GPRs, PC,
HI and LO) and OUT of the state after the last step, whose PC is SENTINEL; after a fault it is the record alone (R206,
R226). A run that goes on has no report. -/
def Obligations.ReportIsOfTheLastStep : Prop :=
  ∀ (s : State) (k : Nat), s.status = .running →
    ((runLoop k s).status = .running → (runLoop k s).report = none) ∧
    ((runLoop k s).status = .halted → ∃ n g, n < k ∧
      (runLoop n s).status = .running ∧ (runLoop n s).pc = s.cfg.sentinel ∧
      runLoop k s = { runLoop n s with status := .halted } ∧ (∀ i : Reg, g[i] = (runLoop n s).x i) ∧
      (runLoop k s).report = some (.halted (runLoop n s).steps (runLoop n s).marks g (runLoop n s).pc
        (runLoop n s).hi (runLoop n s).lo (runLoop n s).out)) ∧
    ∀ r, (runLoop k s).status = .faulted r → (runLoop k s).report = some (.faulted r)

/-- The machine's invariant (its first clause is the model's canonical form of memory, log entry 14) holds after every step
that answers a next state, from every state it holds in. -/
def Obligations.StepKeepsInvariant : Prop :=
  ∀ s s' : State, s.Inv → step s = .next s' → s'.Inv

/-! ## Reset (70_reset_and_hazards.md) -/

/-- The machine's invariant holds at reset. -/
def Obligations.ResetMeetsInvariant : Prop := State.reset.Inv

/-- R34, R240: with an image no longer than MEM_SIZE and MEM_SIZE in range, a launch builds the reset state: every GPR 0
but for the seeds, GPR 0 zero and GPR 31 SENTINEL whatever is seeded, PC, HI and LO 0, memory the image and then zeros,
OUT empty, STATUS Running, STEPS 0, MARKS empty, and the parameters as given. -/
def Obligations.LaunchBuildsResetState : Prop :=
  ∀ (size : Nat) (params : Config) (image : List Byte) (seeds : List (Reg × Word)),
    size ≤ 0x7FFF8000 → image.length ≤ size →
    ∃ s, launch size params (some image) seeds = .ok s ∧
      s.x 0 = 0 ∧ s.x 31 = params.sentinel ∧
      (∀ i : Reg, i ≠ 0 → i ≠ 31 →
        s.x i = ((seeds.reverse.find? (fun e => e.1 = i)).map Prod.snd).getD 0) ∧
      s.pc = 0 ∧ s.hi = 0 ∧ s.lo = 0 ∧
      (∀ a, s.mem.read a = image.getD a 0) ∧
      s.out = [] ∧ s.status = .running ∧ s.steps = 0 ∧ s.marks = none ∧
      s.cfg.memSize.val = size ∧ s.cfg.sentinel = params.sentinel ∧ s.cfg.outputAddr = params.outputAddr ∧
      s.cfg.divOverflow = params.divOverflow ∧ s.cfg.jalrOrder = params.jalrOrder ∧ s.cfg.stackTop = params.stackTop ∧
      s.cfg.heapOrigin = params.heapOrigin

/-- Every launch that builds a state builds one in which the machine's invariant holds. The invariant's first clause is
the model's canonical form of memory (its own choice of representation, log entry 14). -/
def Obligations.LaunchMeetsInvariant : Prop :=
  ∀ (size : Nat) (params : Config) (image : Option (List Byte)) (seeds : List (Reg × Word)) (s : State),
    launch size params image seeds = .ok s → s.Inv

/-- The reset state of the model is the launch with an empty image and no seed (log entry 6), at the model's own
parameter values (log entries 1 to 5). -/
def Obligations.ResetIsTheEmptyLaunch : Prop :=
  launch 0x7FFF8000 Config.atReset (some []) [] = .ok State.reset

/-- R227: without a program image there is no run. MEM_SIZE above 0x7FFF8000 (U11) and an image longer than MEM_SIZE (R8)
are no launch either. -/
def Obligations.LaunchRefusesBadInputs : Prop :=
  ∀ (size : Nat) (params : Config) (seeds : List (Reg × Word)) (image : List Byte),
    launch size params none seeds = .error .imageMissing ∧
    (0x7FFF8000 < size → launch size params (some image) seeds = .error .memorySizeOutOfRange) ∧
    (size ≤ 0x7FFF8000 → size < image.length → launch size params (some image) seeds = .error .imageTooLong)

/-! ## Diagnostics (60_exceptions.md R224) -/

/-- R224: the heap walk over chunks that fill the space from HEAP_ORIGIN to x[28] emits one line for each word after a
header. That a line is an address and a word is the model's reading (log entry 12, DEDUCED). -/
def Obligations.HeapWalkEmitsChunkWords : Prop :=
  ∀ (s : State) (ns : List Nat),
    ChunksFrom s.mem s.cfg.heapOrigin.toNat ns → (s.x 28).toNat = s.cfg.heapOrigin.toNat + chunksSize ns →
    (s.x 28).toNat ≤ s.cfg.memSize.val →
    s.heapWalk = chunkWords s.mem s.cfg.heapOrigin.toNat ns

/-- R224: the stack walk over chunks that fill the space from x[30] to STACK_TOP emits one line for each word after a
header. That a line is an address and a word is the model's reading (log entry 12, DEDUCED). -/
def Obligations.StackWalkEmitsChunkWords : Prop :=
  ∀ (s : State) (ns : List Nat),
    ChunksFrom s.mem (s.x 30).toNat ns → s.cfg.stackTop.toNat = (s.x 30).toNat + chunksSize ns →
    s.cfg.stackTop.toNat ≤ s.cfg.memSize.val →
    s.stackWalk = chunkWords s.mem (s.x 30).toNat ns
end

