-- ==== Sys2Proof/Laws/Decode.lean ====
section
/-! SUPPORT. The fields of an encoded word, and what decoding one comes down to. -/

namespace Sys2Proof

/-! ## Fields of an R-format and of an I-format word -/

theorem bits_wordR (s t d : Reg) (k : BitVec 11) (n : Nat) :
    (wordR s t d k).getLsbD n =
      if n < 11 then k.getLsbD n else if n < 16 then (regBits d).getLsbD (n - 11)
      else if n < 21 then (regBits t).getLsbD (n - 16) else if n < 26 then (regBits s).getLsbD (n - 21)
      else false := by
  unfold wordR
  simp only [BitVec.getLsbD_append, Enc.opcodeR, Nat.sub_sub]
  split_ifs <;> first | rfl | omega | simp_all

theorem bits_wordI (op : BitVec 6) (s t : Reg) (imm : Int) (n : Nat) :
    (wordI op s t imm).getLsbD n =
      if n < 16 then (BitVec.ofInt 16 imm).getLsbD n else if n < 21 then (regBits t).getLsbD (n - 16)
      else if n < 26 then (regBits s).getLsbD (n - 21) else op.getLsbD (n - 26) := by
  unfold wordI
  simp only [BitVec.getLsbD_append, Nat.sub_sub]
  split_ifs <;> first | rfl | omega

theorem opcodeOf_wordR (s t d : Reg) (k : BitVec 11) : opcodeOf (wordR s t d k) = Enc.opcodeR := by
  show _ = 0#6
  apply BitVec.eq_of_getLsbD_eq
  intro n hn
  simp only [opcodeOf, BitVec.getLsbD_extractLsb', bits_wordR]
  simp [show ¬ 26 + n < 11 by omega, show ¬ 26 + n < 16 by omega, show ¬ 26 + n < 21 by omega]

theorem funcOf_wordR (s t d : Reg) (k : BitVec 11) : funcOf (wordR s t d k) = k := by
  apply BitVec.eq_of_getLsbD_eq
  intro n hn
  simp [funcOf, bits_wordR, hn]

theorem regBits_toFin (r : Reg) : (regBits r).toFin = r := rfl

theorem fieldS_wordR (s t d : Reg) (k : BitVec 11) : fieldS (wordR s t d k) = s := by
  have : (wordR s t d k).extractLsb' 21 5 = regBits s := by
    apply BitVec.eq_of_getLsbD_eq
    intro n hn
    simp [bits_wordR, hn, show ¬ 21 + n < 11 by omega, show ¬ 21 + n < 16 by omega,
      show 21 + n < 26 by omega]
  rw [fieldS, this, regBits_toFin]

theorem fieldT_wordR (s t d : Reg) (k : BitVec 11) : fieldT (wordR s t d k) = t := by
  have : (wordR s t d k).extractLsb' 16 5 = regBits t := by
    apply BitVec.eq_of_getLsbD_eq
    intro n hn
    simp [bits_wordR, hn, show ¬ 16 + n < 11 by omega, show 16 + n < 21 by omega]
  rw [fieldT, this, regBits_toFin]

theorem fieldD_wordR (s t d : Reg) (k : BitVec 11) : fieldD (wordR s t d k) = d := by
  have : (wordR s t d k).extractLsb' 11 5 = regBits d := by
    apply BitVec.eq_of_getLsbD_eq
    intro n hn
    simp [bits_wordR, hn, show 11 + n < 16 by omega]
  rw [fieldD, this, regBits_toFin]

theorem opcodeOf_wordI (op : BitVec 6) (s t : Reg) (imm : Int) : opcodeOf (wordI op s t imm) = op := by
  apply BitVec.eq_of_getLsbD_eq
  intro n hn
  simp [opcodeOf, bits_wordI, hn, show ¬ 26 + n < 16 by omega,
    show ¬ 26 + n < 21 by omega]

theorem fieldS_wordI (op : BitVec 6) (s t : Reg) (imm : Int) : fieldS (wordI op s t imm) = s := by
  have : (wordI op s t imm).extractLsb' 21 5 = regBits s := by
    apply BitVec.eq_of_getLsbD_eq
    intro n hn
    simp [bits_wordI, hn, show ¬ 21 + n < 16 by omega, show 21 + n < 26 by omega]
  rw [fieldS, this, regBits_toFin]

theorem fieldT_wordI (op : BitVec 6) (s t : Reg) (imm : Int) : fieldT (wordI op s t imm) = t := by
  have : (wordI op s t imm).extractLsb' 16 5 = regBits t := by
    apply BitVec.eq_of_getLsbD_eq
    intro n hn
    simp [bits_wordI, hn, show 16 + n < 21 by omega]
  rw [fieldT, this, regBits_toFin]

theorem immOf_wordI (op : BitVec 6) (s t : Reg) {imm : Int} (h : immInRange imm = true) :
    immOf (wordI op s t imm) = imm := by
  have e : (wordI op s t imm).extractLsb' 0 16 = BitVec.ofInt 16 imm := by
    apply BitVec.eq_of_getLsbD_eq
    intro n hn
    simp [bits_wordI, hn]
  have hr := of_decide_eq_true h
  rw [immOf, e, BitVec.toInt_ofInt, Int.bmod_eq_of_le (by omega) (by omega)]

/-! ## Decoding an encoded word -/

theorem decode_wordR (s t d : Reg) (k : BitVec 11) : decode (wordR s t d k) = decodeR k s t d := by
  rw [decode, if_pos (opcodeOf_wordR s t d k), funcOf_wordR, fieldS_wordR, fieldT_wordR, fieldD_wordR]

theorem decode_wordI {op : BitVec 6} (hop : op ≠ 0) (s t : Reg) {imm : Int} (h : immInRange imm = true) :
    decode (wordI op s t imm) = decodeI op s t imm := by
  rw [decode, if_neg (by rw [opcodeOf_wordI]; exact hop), opcodeOf_wordI, fieldS_wordI, fieldT_wordI,
    immOf_wordI op s t h]

/-- The value of any 16-bit field is in range. -/
theorem immInRange_toInt (v : BitVec 16) : immInRange v.toInt = true :=
  decide_eq_true ⟨BitVec.le_toInt v, Int.le_of_lt_add_one (BitVec.toInt_lt (x := v))⟩

theorem decode_fieldsI {op : BitVec 6} (hop : op ≠ 0#6) (s t : Reg) (v : BitVec 16) :
    decode (op ++ regBits s ++ regBits t ++ v) = decodeI op s t v.toInt := by
  have h := decode_wordI hop s t (immInRange_toInt v)
  rwa [wordI, BitVec.ofInt_toInt] at h

theorem decode_fieldsR (s t d : Reg) (k : BitVec 11) :
    decode (0#6 ++ regBits s ++ regBits t ++ regBits d ++ k) = decodeR k s t d := decode_wordR s t d k

/-- The decoded immediate is in the range of its field. -/
theorem immOf_inRange (w : Word) : immInRange (immOf w) = true := immInRange_toInt _

/-! ## Decoding any word -/

theorem decode_of_opcode_zero {w : Word} (h : opcodeOf w = 0#6) :
    decode w = decodeR (funcOf w) (fieldS w) (fieldT w) (fieldD w) := by
  unfold decode; exact if_pos h

theorem decode_of_opcode_ne {w : Word} (h : opcodeOf w ≠ 0#6) :
    decode w = decodeI (opcodeOf w) (fieldS w) (fieldT w) (immOf w) := by
  unfold decode; exact if_neg h

theorem ite_cases {α : Type} {c : Prop} [Decidable c] {a b r : α} (h : (if c then a else b) = r) :
    (c ∧ a = r) ∨ b = r := by
  split at h
  · exact .inl ⟨by assumption, h⟩
  · exact .inr h

/-- An instruction of the R format lies in the row that its function key selects. -/
theorem decodeR_ok {k : BitVec 11} {s t d : Reg} {i : Instr} (h : decodeR k s t d = .ok i) :
    i.row.mask = 0xFC0007FF#32 ∧ i.row.value = k.setWidth 32 ∧ i.wf = true := by
  unfold decodeR at h
  iterate 13
    obtain ⟨hk, e⟩ | h := ite_cases h
    · obtain rfl := Except.ok.inj e
      rw [hk]
      exact ⟨rfl, rfl, rfl⟩
  cases h

/-- An instruction of the I format lies in the row that its opcode selects. -/
theorem decodeI_ok {op : BitVec 6} {s t : Reg} {imm : Int} {i : Instr} (h : decodeI op s t imm = .ok i) :
    i.row.mask = 0xFC000000#32 ∧ i.row.value = op ++ 0#26 ∧ i.wf = immInRange imm := by
  unfold decodeI at h
  iterate 4
    obtain ⟨hk, e⟩ | h := ite_cases h
    · obtain rfl := Except.ok.inj e
      rw [hk]
      exact ⟨rfl, rfl, rfl⟩
  cases h

/-- A word AND the R rows' mask is a key exactly when the opcode is 0 and the function field is the key. -/
theorem and_maskR_iff (w : Word) (k : BitVec 11) :
    w &&& 0xFC0007FF#32 = k.setWidth 32 ↔ opcodeOf w = 0#6 ∧ funcOf w = k := by
  constructor
  · intro h
    constructor <;> apply BitVec.eq_of_getLsbD_eq <;> intro n hn
    · have := congrArg (fun v => v.getLsbD (26 + n)) h
      simp only [BitVec.getLsbD_and, BitVec.getLsbD_setWidth] at this
      simp only [opcodeOf, BitVec.getLsbD_extractLsb']
      interval_cases n <;> simp_all
    · have := congrArg (fun v => v.getLsbD n) h
      simp only [BitVec.getLsbD_and, BitVec.getLsbD_setWidth] at this
      simp only [funcOf, BitVec.getLsbD_extractLsb']
      interval_cases n <;> simp_all
  · rintro ⟨h1, h2⟩
    apply BitVec.eq_of_getLsbD_eq
    intro n hn
    have e1 := fun m => congrArg (fun v => v.getLsbD m) h1
    have e2 := fun m => congrArg (fun v => v.getLsbD m) h2
    simp only [opcodeOf, funcOf, BitVec.getLsbD_extractLsb'] at e1 e2
    simp only [BitVec.getLsbD_and, BitVec.getLsbD_setWidth]
    by_cases hl : n < 11
    · have := e2 n; interval_cases n <;> simp_all
    · by_cases hg : n < 26
      · interval_cases n <;> simp
      · have := e1 (n - 26)
        interval_cases n <;> simp_all

/-- A word AND the I rows' mask is an opcode's match value exactly when the opcode field is the opcode. -/
theorem and_maskI_iff (w : Word) (op : BitVec 6) : w &&& 0xFC000000#32 = op ++ 0#26 ↔ opcodeOf w = op := by
  constructor
  · intro h
    apply BitVec.eq_of_getLsbD_eq
    intro n hn
    have := congrArg (fun v => v.getLsbD (26 + n)) h
    simp only [BitVec.getLsbD_and, BitVec.getLsbD_append] at this
    simp only [opcodeOf, BitVec.getLsbD_extractLsb']
    interval_cases n <;> simp_all
  · intro h1
    apply BitVec.eq_of_getLsbD_eq
    intro n hn
    have e1 := fun m => congrArg (fun v => v.getLsbD m) h1
    simp only [opcodeOf, BitVec.getLsbD_extractLsb'] at e1
    simp only [BitVec.getLsbD_and, BitVec.getLsbD_append]
    by_cases hg : n < 26
    · interval_cases n <;> simp
    · have := e1 (n - 26)
      interval_cases n <;> simp_all

theorem row_mem_encTable (i : Instr) : i.row ∈ encTable := by cases i <;> simp [encTable, Instr.row]

end Sys2Proof
end

