-- ==== Sys2Proof/Laws/State.lean ====
section
/-! SUPPORT. One lemma per field per update of the state, and what a register reads after each update. -/

namespace Sys2Proof
namespace Machine

variable (s : State) (i : Reg) (v h l : Word)

@[simp] theorem setX_cfg    : (s.setX i v).cfg = s.cfg := rfl
@[simp] theorem setX_pc     : (s.setX i v).pc = s.pc := rfl
@[simp] theorem setX_hi     : (s.setX i v).hi = s.hi := rfl
@[simp] theorem setX_lo     : (s.setX i v).lo = s.lo := rfl
@[simp] theorem setX_mem    : (s.setX i v).mem = s.mem := rfl
@[simp] theorem setX_out    : (s.setX i v).out = s.out := rfl
@[simp] theorem setX_status : (s.setX i v).status = s.status := rfl
@[simp] theorem setX_steps  : (s.setX i v).steps = s.steps := rfl
@[simp] theorem setX_marks  : (s.setX i v).marks = s.marks := rfl
@[simp] theorem setX_gpr    : (s.setX i v).gpr = gprWrite s.gpr i v := rfl

@[simp] theorem setPc_cfg    : (s.setPc v).cfg = s.cfg := rfl
@[simp] theorem setPc_gpr    : (s.setPc v).gpr = s.gpr := rfl
@[simp] theorem setPc_pc     : (s.setPc v).pc = v := rfl
@[simp] theorem setPc_hi     : (s.setPc v).hi = s.hi := rfl
@[simp] theorem setPc_lo     : (s.setPc v).lo = s.lo := rfl
@[simp] theorem setPc_mem    : (s.setPc v).mem = s.mem := rfl
@[simp] theorem setPc_out    : (s.setPc v).out = s.out := rfl
@[simp] theorem setPc_status : (s.setPc v).status = s.status := rfl
@[simp] theorem setPc_steps  : (s.setPc v).steps = s.steps := rfl
@[simp] theorem setPc_marks  : (s.setPc v).marks = s.marks := rfl

@[simp] theorem setHiLo_cfg    : (s.setHiLo h l).cfg = s.cfg := rfl
@[simp] theorem setHiLo_gpr    : (s.setHiLo h l).gpr = s.gpr := rfl
@[simp] theorem setHiLo_pc     : (s.setHiLo h l).pc = s.pc := rfl
@[simp] theorem setHiLo_hi     : (s.setHiLo h l).hi = h := rfl
@[simp] theorem setHiLo_lo     : (s.setHiLo h l).lo = l := rfl
@[simp] theorem setHiLo_mem    : (s.setHiLo h l).mem = s.mem := rfl
@[simp] theorem setHiLo_out    : (s.setHiLo h l).out = s.out := rfl
@[simp] theorem setHiLo_status : (s.setHiLo h l).status = s.status := rfl
@[simp] theorem setHiLo_steps  : (s.setHiLo h l).steps = s.steps := rfl
@[simp] theorem setHiLo_marks  : (s.setHiLo h l).marks = s.marks := rfl

@[simp] theorem emit_cfg    : (s.emit v).cfg = s.cfg := rfl
@[simp] theorem emit_gpr    : (s.emit v).gpr = s.gpr := rfl
@[simp] theorem emit_pc     : (s.emit v).pc = s.pc := rfl
@[simp] theorem emit_hi     : (s.emit v).hi = s.hi := rfl
@[simp] theorem emit_lo     : (s.emit v).lo = s.lo := rfl
@[simp] theorem emit_mem    : (s.emit v).mem = s.mem := rfl
@[simp] theorem emit_out    : (s.emit v).out = s.out ++ [v] := rfl
@[simp] theorem emit_status : (s.emit v).status = s.status := rfl
@[simp] theorem emit_steps  : (s.emit v).steps = s.steps := rfl
@[simp] theorem emit_marks  : (s.emit v).marks = s.marks := rfl

@[simp] theorem counted_cfg    : s.counted.cfg = s.cfg := rfl
@[simp] theorem counted_gpr    : s.counted.gpr = s.gpr := rfl
@[simp] theorem counted_pc     : s.counted.pc = s.pc := rfl
@[simp] theorem counted_hi     : s.counted.hi = s.hi := rfl
@[simp] theorem counted_lo     : s.counted.lo = s.lo := rfl
@[simp] theorem counted_mem    : s.counted.mem = s.mem := rfl
@[simp] theorem counted_out    : s.counted.out = s.out := rfl
@[simp] theorem counted_status : s.counted.status = s.status := rfl
@[simp] theorem counted_steps  : s.counted.steps = s.steps + 1 := rfl
@[simp] theorem counted_marks  :
    s.counted.marks = some (sampleMarks s.marks (s.x spReg) (s.x hpReg)) := rfl

@[simp] theorem fail_cfg (r : Fault) : (s.fail r).cfg = s.cfg := rfl
@[simp] theorem fail_status (r : Fault) : (s.fail r).status = .faulted r := rfl

/-! ## What a register reads -/

@[simp] theorem x_zero : s.x 0 = 0 := rfl

/-- A register's reading depends on the register file alone. -/
theorem x_of_gpr_eq {s s' : State} (e : s'.gpr = s.gpr) (r : Reg) : s'.x r = s.x r := by
  simp [State.x, e]

@[simp] theorem setPc_x (r : Reg) : (s.setPc v).x r = s.x r := rfl
@[simp] theorem setHiLo_x (r : Reg) : (s.setHiLo h l).x r = s.x r := rfl
@[simp] theorem emit_x (r : Reg) : (s.emit v).x r = s.x r := rfl
@[simp] theorem counted_x (r : Reg) : s.counted.x r = s.x r := rfl

theorem setX_zero : s.setX 0 v = s := rfl

theorem setX_x (r : Reg) : (s.setX i v).x r = if r = i ∧ i ≠ 0 then v else s.x r := by
  by_cases hr : r = 0
  · subst hr
    by_cases hi : (0 : Reg) = i
    · subst hi; simp
    · simp [hi]
  · by_cases hi : i = 0
    · subst hi; simp [setX_zero]
    · by_cases e : r = i
      · subst e
        simp [State.x, gprWrite, hi]
      · have : i.val ≠ r.val := fun h => e (Fin.ext h.symm)
        simp [State.x, gprWrite, hi, hr, e, this]

@[simp] theorem setX_x_same (hi : i ≠ 0) : (s.setX i v).x i = v := by simp [setX_x, hi]

theorem setX_x_other {r : Reg} (hr : r ≠ i) : (s.setX i v).x r = s.x r := by simp [setX_x, hr]

/-- The slot of GPR 0 is never written (R21). -/
@[simp] theorem gprWrite_slot_zero (g : Vector Word 32) : (gprWrite g i v)[0] = g[0] := by
  by_cases hi : i = 0
  · simp [gprWrite, hi]
  · have : i.val ≠ 0 := fun h => hi (Fin.ext h)
    simp [gprWrite, hi, this]

end Machine
end Sys2Proof
end

