-- ==== Sys2Proof/Laws/Diagnostics.lean ====
section
/-! SUPPORT. What a walk of the diagnostics does at its boundary, at a well-formed chunk and at any other. -/

namespace Sys2Proof
namespace Machine

theorem wellFormedChunk_iff {m : Memory} {size a bound : Nat} :
    wellFormedChunk m size a bound = true ↔
      a + 4 ≤ size ∧ 4 ≤ (m.readWord a).toNat ∧ (m.readWord a).toNat % 4 = 0 ∧
        a + (m.readWord a).toNat ≤ bound ∧ a + (m.readWord a).toNat ≤ size := by
  simp [wellFormedChunk]

/-- A walk that has reached its boundary emits nothing more. -/
theorem walkChunks_at_bound (m : Memory) (size bound fuel : Nat) : walkChunks m size bound fuel bound = [] := by
  cases fuel <;> simp [walkChunks]

/-- A well-formed chunk gives the lines of its words, and the walk goes on behind it. -/
theorem walkChunks_chunk {m : Memory} {size a bound : Nat} (fuel : Nat) (h : wellFormedChunk m size a bound = true) :
    walkChunks m size bound (fuel + 1) a =
      chunkLines m (a + 4) ((m.readWord a).toNat / 4 - 1) ++
        walkChunks m size bound fuel (a + (m.readWord a).toNat) := by
  have hne : a ≠ bound := by have := wellFormedChunk_iff.1 h; omega
  simp [walkChunks, hne, h]

/-- Any other chunk, one past the boundary among them, gives the free lines. -/
theorem walkChunks_malformed {m : Memory} {size a bound : Nat} (fuel : Nat) (hne : a ≠ bound)
    (h : wellFormedChunk m size a bound = false) :
    walkChunks m size bound (fuel + 1) a = Config.garbledLines m a := by
  simp [walkChunks, hne, h]

@[simp] theorem chunksSize_nil : chunksSize [] = 0 := rfl

@[simp] theorem chunksSize_cons (n : Nat) (ns : List Nat) : chunksSize (n :: ns) = 4 * (n + 1) + chunksSize ns := by
  simp [chunksSize]

end Machine
end Sys2Proof
end

