-- ==== Sys2Proof/Laws/Memory.lean ====
section
/-! SUPPORT. Reading after writing, and the canonical form of memory. -/

namespace Sys2Proof
namespace Machine

namespace Memory

theorem read_filter (m : Memory) (a c : Nat) :
    Memory.read (m.filter (fun e => e.1 ≠ a)) c = if c = a then 0 else Memory.read m c := by
  induction m with
  | nil => simp [Memory.read]
  | cons e m ih =>
    obtain ⟨k, v⟩ := e
    by_cases hk : k = a
    · subst hk
      rw [List.filter_cons_of_neg (by simp), ih]
      by_cases hc : c = k <;> simp [Memory.read, hc]
    · rw [List.filter_cons_of_pos (by simpa using hk)]
      simp only [Memory.read, ih]
      by_cases hc : c = k
      · subst hc; simp [hk]
      · simp [hc]

theorem read_insert (m : Memory) (a : Nat) (b : Byte) (c : Nat) :
    Memory.read (Memory.insert m a b) c = if c = a then b else Memory.read m c := by
  induction m with
  | nil => simp [Memory.insert, Memory.read]
  | cons e m ih =>
    obtain ⟨k, v⟩ := e
    unfold Memory.insert
    split
    · simp [Memory.read]
    · split
      · next h => subst h; by_cases hc : c = a <;> simp [Memory.read, hc]
      · next h =>
        simp only [Memory.read, ih]
        by_cases hk : c = k
        · subst hk
          simp [Ne.symm h]
        · simp [hk]

/-- A byte written reads back, and every other byte reads as before. -/
theorem read_write (m : Memory) (a : Nat) (b : Byte) (c : Nat) :
    (Memory.write m a b).read c = if c = a then b else m.read c := by
  unfold Memory.write
  split
  · next h => rw [read_filter, h]
  · exact read_insert m a b c

theorem mem_insert {m : Memory} {a : Nat} {b : Byte} {e : Host.Cell} (h : e ∈ Memory.insert m a b) :
    e = (a, b) ∨ e ∈ m := by
  induction m with
  | nil => simpa [Memory.insert] using h
  | cons e' m ih =>
    obtain ⟨k, v⟩ := e'
    unfold Memory.insert at h
    split at h
    · simpa using h
    · split at h
      · simp only [List.mem_cons] at h ⊢; tauto
      · simp only [List.mem_cons] at h ⊢
        rcases h with h | h
        · exact .inr (.inl h)
        · have := ih h; tauto

theorem wf_insert {m : Memory} (h : m.wf) (a : Nat) {b : Byte} (hb : b ≠ 0) : (Memory.insert m a b).wf := by
  obtain ⟨hp, hz⟩ := h
  refine ⟨?_, fun e he => ?_⟩
  · induction m with
    | nil => simp [Memory.insert]
    | cons e m ih =>
      obtain ⟨k, v⟩ := e
      have hk := List.pairwise_cons.1 hp
      unfold Memory.insert
      split
      · next hlt =>
        refine List.pairwise_cons.2 ⟨fun e he => ?_, hp⟩
        rcases List.mem_cons.1 he with rfl | he
        · exact hlt
        · exact Nat.lt_trans hlt (hk.1 e he)
      · split
        · next h => subst h; exact List.pairwise_cons.2 ⟨hk.1, hk.2⟩
        · next h1 h2 =>
          refine List.pairwise_cons.2 ⟨fun e he => ?_, ih hk.2 (fun e he => hz e (List.mem_cons_of_mem _ he))⟩
          rcases mem_insert he with rfl | he
          · show k < a
            omega
          · exact hk.1 e he
  · rcases mem_insert he with rfl | he
    · exact hb
    · exact hz e he

/-- A write keeps the canonical form. -/
theorem wf_write {m : Memory} (h : m.wf) (a : Nat) (b : Byte) : (Memory.write m a b).wf := by
  unfold Memory.write
  split
  · exact ⟨h.1.filter _, fun e he => h.2 e (List.mem_of_mem_filter he)⟩
  · next hb => exact wf_insert h a hb

/-- A write inside the store keeps memory inside the store. -/
theorem within_write {m : Memory} {size : Nat} (h : m.within size) {a : Nat} (ha : a < size) (b : Byte) :
    (Memory.write m a b).within size := by
  intro e he
  unfold Memory.write at he
  split at he
  · exact h e (List.mem_of_mem_filter he)
  · rcases mem_insert he with rfl | he
    · exact ha
    · exact h e he

/-- The bytes a word store writes, and that it writes no other. -/
theorem read_writeWord (m : Memory) (a : Nat) (v : Word) (c : Nat) :
    (Memory.writeWord m a v).read c =
      if c = a + 3 then byteOfWord v 3 else if c = a + 2 then byteOfWord v 2
      else if c = a + 1 then byteOfWord v 1 else if c = a then byteOfWord v 0 else m.read c := by
  simp only [Memory.writeWord, read_write]

theorem read_writeWord_other {m : Memory} {a : Nat} (v : Word) {c : Nat} (h : c < a ∨ a + 3 < c) :
    (Memory.writeWord m a v).read c = m.read c := by
  rw [read_writeWord]
  simp [show c ≠ a + 3 by omega, show c ≠ a + 2 by omega, show c ≠ a + 1 by omega, show c ≠ a by omega]

theorem wf_writeWord {m : Memory} (h : m.wf) (a : Nat) (v : Word) : (Memory.writeWord m a v).wf :=
  wf_write (wf_write (wf_write (wf_write h _ _) _ _) _ _) _ _

theorem within_writeWord {m : Memory} {size : Nat} (h : m.within size) {a : Nat} (ha : a + 3 < size) (v : Word) :
    (Memory.writeWord m a v).within size :=
  within_write (within_write (within_write (within_write h (by omega) _) (by omega) _) (by omega) _) (by omega) _

theorem wordOfBytes_byteOfWord (v : Word) :
    wordOfBytes (byteOfWord v 0) (byteOfWord v 1) (byteOfWord v 2) (byteOfWord v 3) = v := by
  apply BitVec.eq_of_getLsbD_eq
  intro i hi
  simp only [wordOfBytes, byteOfWord, BitVec.getLsbD_append, BitVec.getLsbD_extractLsb']
  interval_cases i <;> simp

/-- A stored word reads back. -/
theorem readWord_writeWord (m : Memory) (a : Nat) (v : Word) : (Memory.writeWord m a v).readWord a = v := by
  simp only [Memory.readWord, read_writeWord]
  simpa using wordOfBytes_byteOfWord v

theorem mem_ofBytes {a : Nat} {bs : List Byte} {e : Host.Cell} (h : e ∈ Memory.ofBytes a bs) :
    a ≤ e.1 ∧ e.1 < a + bs.length ∧ e.2 ≠ 0 := by
  induction bs generalizing a with
  | nil => simp [Memory.ofBytes] at h
  | cons b bs ih =>
    unfold Memory.ofBytes at h
    split at h
    · obtain ⟨h1, h2, h3⟩ := ih h
      exact ⟨by omega, by rw [List.length_cons]; omega, h3⟩
    · rcases List.mem_cons.1 h with rfl | h
      · exact ⟨Nat.le_refl _, by simp, by assumption⟩
      · have := ih h
        obtain ⟨h1, h2, h3⟩ := this
        exact ⟨by omega, by rw [List.length_cons]; omega, h3⟩

theorem wf_ofBytes (a : Nat) (bs : List Byte) : (Memory.ofBytes a bs).wf := by
  refine ⟨?_, fun e he => (mem_ofBytes he).2.2⟩
  induction bs generalizing a with
  | nil => exact List.Pairwise.nil
  | cons b bs ih =>
    unfold Memory.ofBytes
    split
    · exact ih (a + 1)
    · exact List.pairwise_cons.2 ⟨fun e he => (mem_ofBytes he).1, ih (a + 1)⟩

end Memory

/-- Placing bytes from outside keeps memory canonical. -/
theorem placeBytes_mem_wf {s : State} (h : s.mem.wf) (a : Nat) (bs : List Byte) : (s.placeBytes a bs).mem.wf := by
  induction bs generalizing s a with
  | nil => exact h
  | cons b bs ih =>
    unfold State.placeBytes
    split
    · exact ih (Memory.wf_write h a b) (a + 1)
    · exact ih h (a + 1)

end Machine
end Sys2Proof
end

