-- ==== Sys2Proof/Laws/Ops.lean ====
section
/-! SUPPORT. What the shared operations do: wrapping arithmetic, the word accesses, the product pair. -/

namespace Sys2Proof
namespace Machine

/-! ## Arithmetic -/

/-- `wrap32(n)` is the word whose unsigned value is n mod 2^32. -/
theorem wrap32_toNat (n : Int) : (wrap32 n).toNat = (n % 2 ^ 32).toNat := by
  simp [wrap32, BitVec.toNat_ofInt]

theorem wrap32_toInt_add (a b : Word) : wrap32 (a.toInt + b.toInt) = a + b := by
  simp [wrap32, BitVec.ofInt_add]

theorem wrap32_toInt_sub (a b : Word) : wrap32 (a.toInt - b.toInt) = a - b := by
  rw [Int.sub_eq_add_neg, wrap32, BitVec.ofInt_add, BitVec.ofInt_neg, BitVec.ofInt_toInt, BitVec.ofInt_toInt,
    BitVec.sub_eq_add_neg]

theorem nextWord_eq (a : Word) : nextWord a = a + 4#32 := by
  apply BitVec.eq_of_toNat_eq
  rw [nextWord, wrap32_toNat, BitVec.toNat_add]
  simp
  omega

theorem prevWord_eq (a : Word) : prevWord a = a - 4#32 := by
  apply BitVec.eq_of_toNat_eq
  rw [prevWord, wrap32_toNat, BitVec.toNat_sub]
  simp
  omega

/-- While an instruction executes, the word before PC is the one that was fetched. -/
@[simp] theorem prevWord_nextWord (a : Word) : prevWord (nextWord a) = a := by
  rw [nextWord_eq, prevWord_eq, BitVec.add_sub_cancel]

/-! ## Word accesses -/

theorem inBounds_iff {s : State} {a : Word} : s.inBounds a = true ↔ a.toNat + 3 < s.cfg.memSize.val := by
  simp [State.inBounds]

theorem memRead_of_inBounds {s : State} {a : Word} (h : a.toNat + 3 < s.cfg.memSize.val) :
    s.memRead a = some (s.mem.readWord a.toNat) := by
  simp [State.memRead, inBounds_iff.2 h]

theorem memRead_eq_none {s : State} {a : Word} : s.memRead a = none ↔ s.cfg.memSize.val ≤ a.toNat + 3 := by
  simp [State.memRead, State.inBounds]

theorem memRead_eq_some {s : State} {a w : Word} :
    s.memRead a = some w ↔ a.toNat + 3 < s.cfg.memSize.val ∧ s.mem.readWord a.toNat = w := by
  simp [State.memRead, State.inBounds]

/-- A word access depends on memory and MEM_SIZE alone. -/
theorem memRead_congr {s s' : State} (hc : s'.cfg = s.cfg) (hm : s'.mem = s.mem) (a : Word) :
    s'.memRead a = s.memRead a := by
  simp [State.memRead, State.inBounds, hc, hm]

/-- Everything `MemWrite` can do when it does not fault. -/
theorem memWrite_cases {s s' : State} {a v : Word} (h : s.memWrite a v = some s') :
    (a = s.cfg.outputAddr ∧ s' = s.emit v) ∨
    (a ≠ s.cfg.outputAddr ∧ a.toNat + 3 < s.cfg.memSize.val ∧
      s' = { s with mem := s.mem.writeWord a.toNat v }) := by
  unfold State.memWrite at h
  split at h
  · next e => exact .inl ⟨e, (Option.some.inj h).symm⟩
  · next e =>
    split at h
    · next b => exact .inr ⟨e, inBounds_iff.1 b, (Option.some.inj h).symm⟩
    · exact absurd h (by simp)

theorem memWrite_eq_none {s : State} {a v : Word} :
    s.memWrite a v = none ↔ a ≠ s.cfg.outputAddr ∧ s.cfg.memSize.val ≤ a.toNat + 3 := by
  unfold State.memWrite State.inBounds
  by_cases h : a = s.cfg.outputAddr <;> simp [h]

theorem memWrite_output (s : State) (v : Word) : s.memWrite s.cfg.outputAddr v = some (s.emit v) := by
  simp [State.memWrite]

theorem memWrite_of_inBounds {s : State} {a : Word} (ho : a ≠ s.cfg.outputAddr)
    (hb : a.toNat + 3 < s.cfg.memSize.val) (v : Word) :
    s.memWrite a v = some { s with mem := s.mem.writeWord a.toNat v } := by
  simp [State.memWrite, ho, inBounds_iff.2 hb]

/-! ## The product pair -/

@[simp] theorem setProduct_cfg (s : State) (p : Int) : (s.setProduct p).cfg = s.cfg := rfl
@[simp] theorem setProduct_gpr (s : State) (p : Int) : (s.setProduct p).gpr = s.gpr := rfl
@[simp] theorem setProduct_pc (s : State) (p : Int) : (s.setProduct p).pc = s.pc := rfl
@[simp] theorem setProduct_mem (s : State) (p : Int) : (s.setProduct p).mem = s.mem := rfl
@[simp] theorem setProduct_out (s : State) (p : Int) : (s.setProduct p).out = s.out := rfl
@[simp] theorem setProduct_status (s : State) (p : Int) : (s.setProduct p).status = s.status := rfl
@[simp] theorem setProduct_steps (s : State) (p : Int) : (s.setProduct p).steps = s.steps := rfl
@[simp] theorem setProduct_marks (s : State) (p : Int) : (s.setProduct p).marks = s.marks := rfl
@[simp] theorem setProduct_x (s : State) (p : Int) (r : Reg) : (s.setProduct p).x r = s.x r := rfl

/-- HI and LO together are the 64-bit pattern of the product. -/
theorem setProduct_pattern (s : State) (p : Int) :
    (s.setProduct p).hi ++ (s.setProduct p).lo = BitVec.ofInt 64 p := by
  show (BitVec.ofInt 64 p).extractLsb' 32 32 ++ (BitVec.ofInt 64 p).extractLsb' 0 32 = BitVec.ofInt 64 p
  apply BitVec.eq_of_getLsbD_eq
  intro i hi
  simp only [BitVec.getLsbD_append, BitVec.getLsbD_extractLsb']
  by_cases h : i < 32
  · simp [h]
  · simp only [h, decide_false]
    have : i - 32 < 32 := by omega
    simp [this, show 32 + (i - 32) = i by omega]

end Machine
end Sys2Proof
end

