-- ==== Sys2Proof/Laws/Exec.lean ====
section
/-! SUPPORT. Said once: everything an instruction can do to the state when it completes, and which instruction can
raise which fault. -/

namespace Sys2Proof
namespace Machine

/-- The shapes of a completed instruction's effect. -/
inductive Effect (s : State) : State → Prop where
  | none : Effect s s
  | gpr (d : Reg) (v : Word) : Effect s (s.setX d v)
  | hiLo (h l : Word) : Effect s (s.setHiLo h l)
  | pc (v : Word) : Effect s (s.setPc v)
  | gprPc (d : Reg) (v t : Word) : Effect s ((s.setX d v).setPc t)
  | emit (v : Word) : Effect s (s.emit v)
  | store (a v : Word) (h : a.toNat + 3 < s.cfg.memSize.val) :
      Effect s { s with mem := s.mem.writeWord a.toNat v }

theorem execDiv_cases (rs rt : Reg) (s : State) :
    ((s.x rt).toInt = 0 ∧ execDiv rs rt s = .fault (.divideByZero s.site)) ∨
    ((s.x rt).toInt ≠ 0 ∧ divOverflows (s.x rs) (s.x rt) = true ∧ s.cfg.divOverflow = .fault ∧
      execDiv rs rt s = .fault (.divideOverflow s.site)) ∨
    ((s.x rt).toInt ≠ 0 ∧ ¬ (divOverflows (s.x rs) (s.x rt) = true ∧ s.cfg.divOverflow = .fault) ∧
      execDiv rs rt s = .next (s.setHiLo (wrap32 (Int.tmod (s.x rs).toInt (s.x rt).toInt))
        (wrap32 (Int.tdiv (s.x rs).toInt (s.x rt).toInt)))) := by
  unfold execDiv raise
  by_cases h0 : (s.x rt).toInt = 0
  · exact .inl ⟨h0, by rw [if_pos h0]⟩
  · by_cases h1 : divOverflows (s.x rs) (s.x rt) = true ∧ s.cfg.divOverflow = .fault
    · exact .inr (.inl ⟨h0, h1.1, h1.2, by rw [if_neg h0, if_pos h1]⟩)
    · exact .inr (.inr ⟨h0, h1, by rw [if_neg h0, if_neg h1]⟩)

theorem execDivu_cases (rs rt : Reg) (s : State) :
    ((s.x rt).toNat = 0 ∧ execDivu rs rt s = .fault (.divideByZero s.site)) ∨
    ((s.x rt).toNat ≠ 0 ∧ execDivu rs rt s =
      .next (s.setHiLo (wrap32 ((s.x rs).toNat % (s.x rt).toNat : Nat))
        (wrap32 ((s.x rs).toNat / (s.x rt).toNat : Nat)))) := by
  unfold execDivu raise
  by_cases h0 : (s.x rt).toNat = 0
  · exact .inl ⟨h0, by rw [if_pos h0]⟩
  · exact .inr ⟨h0, by rw [if_neg h0]⟩

theorem execLis_cases (rd : Reg) (s : State) :
    (s.memRead s.pc = none ∧ execLis rd s = .fault (.outOfBoundsMemoryAccess s.site s.pc)) ∨
    ∃ v, s.memRead s.pc = some v ∧ execLis rd s = .next ((s.setX rd v).setPc (nextWord s.pc)) := by
  unfold execLis raise
  cases h : s.memRead s.pc <;> simp

theorem execLw_cases (rs rt : Reg) (imm : Int) (s : State) :
    (s.memRead (effectiveAddress (s.x rs) imm) = none ∧
      execLw rs rt imm s = .fault (.outOfBoundsMemoryAccess s.site (effectiveAddress (s.x rs) imm))) ∨
    ∃ v, s.memRead (effectiveAddress (s.x rs) imm) = some v ∧ execLw rs rt imm s = .next (s.setX rt v) := by
  unfold execLw raise
  cases h : s.memRead (effectiveAddress (s.x rs) imm) <;> simp

theorem execSw_cases (rs rt : Reg) (imm : Int) (s : State) :
    (s.memWrite (effectiveAddress (s.x rs) imm) (s.x rt) = none ∧
      execSw rs rt imm s = .fault (.outOfBoundsMemoryAccess s.site (effectiveAddress (s.x rs) imm))) ∨
    ∃ s', s.memWrite (effectiveAddress (s.x rs) imm) (s.x rt) = some s' ∧ execSw rs rt imm s = .next s' := by
  unfold execSw raise
  cases h : s.memWrite (effectiveAddress (s.x rs) imm) (s.x rt) <;> simp

theorem memWrite_effect {s s' : State} {a v : Word} (h : s.memWrite a v = some s') : Effect s s' := by
  obtain ⟨-, rfl⟩ | ⟨-, hb, rfl⟩ := memWrite_cases h
  · exact .emit v
  · exact .store a v hb

/-- Everything a completed instruction can have done. -/
theorem exec_effect {i : Instr} {s s' : State} (h : exec i s = .next s') : Effect s s' := by
  cases i with
  | add rs rt rd | sub rs rt rd | slt rs rt rd | sltu rs rt rd =>
    obtain rfl := Host.Outcome.next.inj h; exact .gpr _ _
  | mult rs rt | multu rs rt => obtain rfl := Host.Outcome.next.inj h; exact .hiLo _ _
  | mfhi rd | mflo rd => obtain rfl := Host.Outcome.next.inj h; exact .gpr _ _
  | jr rs => obtain rfl := Host.Outcome.next.inj h; exact .pc _
  | div rs rt =>
    change execDiv rs rt s = _ at h
    obtain ⟨-, e⟩ | ⟨-, -, -, e⟩ | ⟨-, -, e⟩ := execDiv_cases rs rt s <;> rw [e] at h
    · exact absurd h (by simp)
    · exact absurd h (by simp)
    · obtain rfl := Host.Outcome.next.inj h; exact .hiLo _ _
  | divu rs rt =>
    change execDivu rs rt s = _ at h
    obtain ⟨-, e⟩ | ⟨-, e⟩ := execDivu_cases rs rt s <;> rw [e] at h
    · exact absurd h (by simp)
    · obtain rfl := Host.Outcome.next.inj h; exact .hiLo _ _
  | lis rd =>
    change execLis rd s = _ at h
    obtain ⟨-, e⟩ | ⟨v, -, e⟩ := execLis_cases rd s <;> rw [e] at h
    · exact absurd h (by simp)
    · obtain rfl := Host.Outcome.next.inj h; exact .gprPc _ _ _
  | lw rs rt imm =>
    change execLw rs rt imm s = _ at h
    obtain ⟨-, e⟩ | ⟨v, -, e⟩ := execLw_cases rs rt imm s <;> rw [e] at h
    · exact absurd h (by simp)
    · obtain rfl := Host.Outcome.next.inj h; exact .gpr _ _
  | sw rs rt imm =>
    change execSw rs rt imm s = _ at h
    obtain ⟨-, e⟩ | ⟨t, hw, e⟩ := execSw_cases rs rt imm s <;> rw [e] at h
    · exact absurd h (by simp)
    · obtain rfl := Host.Outcome.next.inj h; exact memWrite_effect hw
  | jalr rs =>
    change execJalr rs s = _ at h
    unfold execJalr at h
    split at h <;> (obtain rfl := Host.Outcome.next.inj h; exact .gprPc _ _ _)
  | beq rs rt imm =>
    change execBeq rs rt imm s = _ at h
    unfold execBeq at h
    split at h <;> obtain rfl := Host.Outcome.next.inj h
    · exact .pc _
    · exact .none
  | bne rs rt imm =>
    change execBne rs rt imm s = _ at h
    unfold execBne at h
    split at h <;> obtain rfl := Host.Outcome.next.inj h
    · exact .none
    · exact .pc _

/-- Every fault an instruction raises, with the instruction that raises it. -/
theorem exec_fault_cases {i : Instr} {s : State} {r : Fault} (h : exec i s = .fault r) :
    (∃ rd, i = .lis rd ∧ s.memRead s.pc = none ∧ r = .outOfBoundsMemoryAccess s.site s.pc) ∨
    (∃ rs rt imm, i = .lw rs rt imm ∧ s.memRead (effectiveAddress (s.x rs) imm) = none ∧
      r = .outOfBoundsMemoryAccess s.site (effectiveAddress (s.x rs) imm)) ∨
    (∃ rs rt imm, i = .sw rs rt imm ∧ s.memWrite (effectiveAddress (s.x rs) imm) (s.x rt) = none ∧
      r = .outOfBoundsMemoryAccess s.site (effectiveAddress (s.x rs) imm)) ∨
    (∃ rs rt, (i = .div rs rt ∨ i = .divu rs rt) ∧ s.x rt = 0 ∧ r = .divideByZero s.site) ∨
    (∃ rs rt, i = .div rs rt ∧ divOverflows (s.x rs) (s.x rt) = true ∧ s.cfg.divOverflow = .fault ∧
      r = .divideOverflow s.site) := by
  cases i with
  | add rs rt rd | sub rs rt rd | slt rs rt rd | sltu rs rt rd | mult rs rt | multu rs rt | mfhi rd | mflo rd
  | jr rs => exact absurd h (by simp [exec, execAdd, execSub, execSlt, execSltu, execMult, execMultu, execMfhi, execMflo, execJr])
  | jalr rs =>
    change execJalr rs s = _ at h
    unfold execJalr at h
    split at h <;> exact absurd h (by simp)
  | beq rs rt imm =>
    change execBeq rs rt imm s = _ at h
    unfold execBeq at h
    split at h <;> exact absurd h (by simp)
  | bne rs rt imm =>
    change execBne rs rt imm s = _ at h
    unfold execBne at h
    split at h <;> exact absurd h (by simp)
  | div rs rt =>
    change execDiv rs rt s = _ at h
    obtain ⟨h0, e⟩ | ⟨-, h1, h2, e⟩ | ⟨-, -, e⟩ := execDiv_cases rs rt s <;> rw [e] at h
    · obtain rfl := Host.Outcome.fault.inj h
      exact .inr (.inr (.inr (.inl ⟨rs, rt, .inl rfl, BitVec.eq_of_toInt_eq (by simpa using h0), rfl⟩)))
    · obtain rfl := Host.Outcome.fault.inj h
      exact .inr (.inr (.inr (.inr ⟨rs, rt, rfl, h1, h2, rfl⟩)))
    · exact absurd h (by simp)
  | divu rs rt =>
    change execDivu rs rt s = _ at h
    obtain ⟨h0, e⟩ | ⟨-, e⟩ := execDivu_cases rs rt s <;> rw [e] at h
    · obtain rfl := Host.Outcome.fault.inj h
      exact .inr (.inr (.inr (.inl ⟨rs, rt, .inr rfl, BitVec.eq_of_toNat_eq (by simpa using h0), rfl⟩)))
    · exact absurd h (by simp)
  | lis rd =>
    change execLis rd s = _ at h
    obtain ⟨h0, e⟩ | ⟨v, -, e⟩ := execLis_cases rd s <;> rw [e] at h
    · obtain rfl := Host.Outcome.fault.inj h
      exact .inl ⟨rd, rfl, h0, rfl⟩
    · exact absurd h (by simp)
  | lw rs rt imm =>
    change execLw rs rt imm s = _ at h
    obtain ⟨h0, e⟩ | ⟨v, -, e⟩ := execLw_cases rs rt imm s <;> rw [e] at h
    · obtain rfl := Host.Outcome.fault.inj h
      exact .inr (.inl ⟨rs, rt, imm, rfl, h0, rfl⟩)
    · exact absurd h (by simp)
  | sw rs rt imm =>
    change execSw rs rt imm s = _ at h
    obtain ⟨h0, e⟩ | ⟨t, -, e⟩ := execSw_cases rs rt imm s <;> rw [e] at h
    · obtain rfl := Host.Outcome.fault.inj h
      exact .inr (.inr (.inl ⟨rs, rt, imm, rfl, h0, rfl⟩))
    · exact absurd h (by simp)

/-- No instruction is refused. -/
theorem exec_not_refused (i : Instr) (s : State) (r : Refusal) : exec i s ≠ .refused r := by
  intro h
  cases i with
  | add rs rt rd | sub rs rt rd | slt rs rt rd | sltu rs rt rd | mult rs rt | multu rs rt | mfhi rd | mflo rd
  | jr rs => exact absurd h (by simp [exec, execAdd, execSub, execSlt, execSltu, execMult, execMultu, execMfhi, execMflo, execJr])
  | jalr rs =>
    change execJalr rs s = _ at h
    unfold execJalr at h
    split at h <;> exact absurd h (by simp)
  | beq rs rt imm =>
    change execBeq rs rt imm s = _ at h
    unfold execBeq at h
    split at h <;> exact absurd h (by simp)
  | bne rs rt imm =>
    change execBne rs rt imm s = _ at h
    unfold execBne at h
    split at h <;> exact absurd h (by simp)
  | div rs rt =>
    change execDiv rs rt s = _ at h
    obtain ⟨-, e⟩ | ⟨-, -, -, e⟩ | ⟨-, -, e⟩ := execDiv_cases rs rt s <;> rw [e] at h <;> exact absurd h (by simp)
  | divu rs rt =>
    change execDivu rs rt s = _ at h
    obtain ⟨-, e⟩ | ⟨-, e⟩ := execDivu_cases rs rt s <;> rw [e] at h <;> exact absurd h (by simp)
  | lis rd =>
    change execLis rd s = _ at h
    obtain ⟨-, e⟩ | ⟨v, -, e⟩ := execLis_cases rd s <;> rw [e] at h <;> exact absurd h (by simp)
  | lw rs rt imm =>
    change execLw rs rt imm s = _ at h
    obtain ⟨-, e⟩ | ⟨v, -, e⟩ := execLw_cases rs rt imm s <;> rw [e] at h <;> exact absurd h (by simp)
  | sw rs rt imm =>
    change execSw rs rt imm s = _ at h
    obtain ⟨-, e⟩ | ⟨t, -, e⟩ := execSw_cases rs rt imm s <;> rw [e] at h <;> exact absurd h (by simp)

end Machine
end Sys2Proof
end

