-- ==== Sys2Proof/Laws/Frame.lean ====
section
/-! SUPPORT. The frames of the updates an instruction makes. -/

namespace Sys2Proof
namespace Machine

variable (s : State) (d : Reg) (v t h l : Word)

theorem onlyGprWritten_setX : OnlyGprWritten s (s.setX d v) d v :=
  ⟨fun hd => setX_x_same s d v hd, rfl, fun _ hr => setX_x_other s d v hr⟩

theorem onlyGprWritten_setX_setPc : OnlyGprWritten s ((s.setX d v).setPc t) d v :=
  ⟨fun hd => setX_x_same s d v hd, rfl, fun _ hr => setX_x_other s d v hr⟩

theorem gprsKept_of_gpr_eq {s s' : State} (e : s'.gpr = s.gpr) : GprsKept s s' := fun r => x_of_gpr_eq e r

theorem memoryKept_of_eq {s s' : State} (em : s'.mem = s.mem) (eo : s'.out = s.out) : MemoryKept s s' :=
  ⟨fun a => by rw [em], eo⟩

theorem runStateKept_refl : RunStateKept s s := ⟨rfl, rfl, rfl, rfl⟩

/-- A store keeps what it does not touch. -/
theorem memWrite_frame {s s' : State} {a v : Word} (h : s.memWrite a v = some s') :
    s'.gpr = s.gpr ∧ s'.pc = s.pc ∧ s'.hi = s.hi ∧ s'.lo = s.lo ∧ RunStateKept s s' := by
  obtain ⟨-, rfl⟩ | ⟨-, -, rfl⟩ := memWrite_cases h <;> exact ⟨rfl, rfl, rfl, rfl, runStateKept_refl _⟩

theorem toInt_eq_zero_iff {w : Word} : w.toInt = 0 ↔ w = 0 :=
  ⟨fun h => BitVec.eq_of_toInt_eq (by simpa using h), fun h => by subst h; rfl⟩

theorem divOverflows_iff {a b : Word} : divOverflows a b = true ↔ a = 0x80000000#32 ∧ b = 0xFFFFFFFF#32 := by
  unfold divOverflows
  rw [decide_eq_true_eq]
  constructor
  · rintro ⟨h1, h2⟩
    exact ⟨BitVec.eq_of_toInt_eq h1, BitVec.eq_of_toInt_eq h2⟩
  · rintro ⟨rfl, rfl⟩; decide

end Machine
end Sys2Proof
end

