-- ==== Sys2Proof/Laws/PerInstr.lean ====
section
/-! SUPPORT. A property of every instruction as syntax, one lemma per constructor: the word the encoder writes lies
in the row of the table of encodings that the instruction belongs to (spec 30_encoding.md R80). -/

namespace Sys2Proof
namespace Laws

theorem wordR_and_mask (s t d : Reg) (k : BitVec 11) :
    wordR s t d k &&& 0xFC0007FF#32 = k.setWidth 32 := by
  apply BitVec.eq_of_getLsbD_eq
  intro n hn
  simp only [BitVec.getLsbD_and, bits_wordR, BitVec.getLsbD_setWidth]
  interval_cases n <;> simp

theorem wordI_and_mask (op : BitVec 6) (s t : Reg) (imm : Int) :
    wordI op s t imm &&& 0xFC000000#32 = op ++ 0#26 := by
  apply BitVec.eq_of_getLsbD_eq
  intro n hn
  simp only [BitVec.getLsbD_and, bits_wordI, BitVec.getLsbD_append]
  interval_cases n <;> simp

namespace EncodesInRow

/-- `encode i AND mask = value` for the row of `i` (R80). -/
def Statement (i : Instr) : Prop := encode i &&& i.row.mask = i.row.value

theorem add (rs rt rd : Reg) : Statement (.add rs rt rd) := wordR_and_mask rs rt rd Enc.add
theorem sub (rs rt rd : Reg) : Statement (.sub rs rt rd) := wordR_and_mask rs rt rd Enc.sub
theorem mult (rs rt : Reg) : Statement (.mult rs rt) := wordR_and_mask rs rt 0 Enc.mult
theorem multu (rs rt : Reg) : Statement (.multu rs rt) := wordR_and_mask rs rt 0 Enc.multu
theorem div (rs rt : Reg) : Statement (.div rs rt) := wordR_and_mask rs rt 0 Enc.div
theorem divu (rs rt : Reg) : Statement (.divu rs rt) := wordR_and_mask rs rt 0 Enc.divu
theorem mfhi (rd : Reg) : Statement (.mfhi rd) := wordR_and_mask 0 0 rd Enc.mfhi
theorem mflo (rd : Reg) : Statement (.mflo rd) := wordR_and_mask 0 0 rd Enc.mflo
theorem lis (rd : Reg) : Statement (.lis rd) := wordR_and_mask 0 0 rd Enc.lis
theorem slt (rs rt rd : Reg) : Statement (.slt rs rt rd) := wordR_and_mask rs rt rd Enc.slt
theorem sltu (rs rt rd : Reg) : Statement (.sltu rs rt rd) := wordR_and_mask rs rt rd Enc.sltu
theorem jr (rs : Reg) : Statement (.jr rs) := wordR_and_mask rs 0 0 Enc.jr
theorem jalr (rs : Reg) : Statement (.jalr rs) := wordR_and_mask rs 0 0 Enc.jalr
theorem lw (rs rt : Reg) (imm : Int) : Statement (.lw rs rt imm) := wordI_and_mask Enc.lw rs rt imm
theorem sw (rs rt : Reg) (imm : Int) : Statement (.sw rs rt imm) := wordI_and_mask Enc.sw rs rt imm
theorem beq (rs rt : Reg) (imm : Int) : Statement (.beq rs rt imm) := wordI_and_mask Enc.beq rs rt imm
theorem bne (rs rt : Reg) (imm : Int) : Statement (.bne rs rt imm) := wordI_and_mask Enc.bne rs rt imm

end EncodesInRow
end Laws
end Sys2Proof
end

