-- ==== Sys2Proof/Laws/Step.lean ====
section
/-! SUPPORT. Said once: what one step of the machine can do. -/

namespace Sys2Proof
namespace Machine

/-- An ended run stays as it is. -/
theorem step_of_ended {s : State} (h : s.status ≠ .running) : step s = .next s := by
  unfold step iterate
  split
  · next e => exact absurd e h
  · rfl
  · rfl

/-- At SENTINEL the run halts and nothing else changes. -/
theorem step_of_sentinel {s : State} (h : s.status = .running) (hp : s.pc = s.cfg.sentinel) :
    step s = .next { s with status := .halted } := by
  simp [step, iterate, h, hp]

/-- Elsewhere a running machine takes an engine step and does the bookkeeping after it. -/
theorem step_of_fetches {s : State} (h : s.fetches) :
    step s = match engineStep s with
      | .next s'   => afterStep s.pc (s.memRead s.pc) s'
      | .fault r   => .fault r
      | .refused r => .refused r := by
  cases he : engineStep s <;> simp [step, iterate, h.1, h.2, he]

theorem engineStep_of_fetch_none {s : State} (h : s.memRead s.pc = none) :
    engineStep s = .fault (.outOfBoundsMemoryAccess ⟨s.pc, none, s.steps⟩ s.pc) := by
  simp [engineStep, h, raise]

theorem engineStep_of_unknown {s : State} {w : Word} {e : DecodeError} (h : s.memRead s.pc = some w)
    (hd : decode w = .error e) :
    engineStep s = .fault (.unknownInstruction ⟨s.pc, some w, s.steps⟩) := by
  simp [engineStep, h, hd, raise]

theorem engineStep_of_decode {s : State} {w : Word} {i : Instr} (h : s.memRead s.pc = some w)
    (hd : decode w = .ok i) : engineStep s = exec i (s.setPc (nextWord s.pc)) := by
  simp [engineStep, h, hd]

/-- A completed engine step ran one decoded instruction on the advanced PC. -/
theorem engineStep_next {s s' : State} (h : engineStep s = .next s') :
    ∃ w i, s.memRead s.pc = some w ∧ decode w = .ok i ∧ exec i (s.setPc (nextWord s.pc)) = .next s' := by
  cases hm : s.memRead s.pc with
  | none => rw [engineStep_of_fetch_none hm] at h; exact absurd h (by simp)
  | some w =>
    cases hd : decode w with
    | error e => rw [engineStep_of_unknown hm hd] at h; exact absurd h (by simp)
    | ok i => rw [engineStep_of_decode hm hd] at h; exact ⟨w, i, rfl, hd, h⟩

theorem engineStep_not_refused (s : State) (r : Refusal) : engineStep s ≠ .refused r := by
  intro h
  cases hm : s.memRead s.pc with
  | none => rw [engineStep_of_fetch_none hm] at h; exact absurd h (by simp)
  | some w =>
    cases hd : decode w with
    | error e => rw [engineStep_of_unknown hm hd] at h; exact absurd h (by simp)
    | ok i => rw [engineStep_of_decode hm hd] at h; exact exec_not_refused i _ r h

theorem collides_iff {s : State} : s.collides = true ↔ (s.x spReg).toNat < (s.x hpReg).toNat := by
  simp [State.collides, lessUnsigned]

theorem afterStep_of_collides {f : Word} {w : Option Word} {s : State} (h : s.collides = true) :
    afterStep f w s = .fault (.stackHeapCollision ⟨f, w, s.steps + 1⟩ (s.x hpReg) (s.x spReg)) := by
  simp [afterStep, h, raise]

theorem afterStep_of_apart {f : Word} {w : Option Word} {s : State} (h : s.collides = false) :
    afterStep f w s = .next s.counted := by
  simp [afterStep, h]

/-- Everything a step that answers a next state can have done. -/
theorem step_cases {s s' : State} (h : step s = .next s') :
    (s.status ≠ .running ∧ s' = s) ∨
    (s.status = .running ∧ s.pc = s.cfg.sentinel ∧ s' = { s with status := .halted }) ∨
    (s.fetches ∧ ∃ w i t, s.memRead s.pc = some w ∧ decode w = .ok i ∧
      exec i (s.setPc (nextWord s.pc)) = .next t ∧ t.collides = false ∧ s' = t.counted) := by
  by_cases hr : s.status = .running
  · by_cases hp : s.pc = s.cfg.sentinel
    · rw [step_of_sentinel hr hp] at h
      exact .inr (.inl ⟨hr, hp, (Host.Outcome.next.inj h).symm⟩)
    · rw [step_of_fetches ⟨hr, hp⟩] at h
      cases he : engineStep s with
      | fault r => rw [he] at h; exact absurd h (by simp)
      | refused r => rw [he] at h; exact absurd h (by simp)
      | next t =>
        rw [he] at h
        obtain ⟨w, i, hm, hd, hx⟩ := engineStep_next he
        cases hc : t.collides with
        | true => exact absurd (h.symm.trans (afterStep_of_collides hc)) (by simp)
        | false =>
          have := h.symm.trans (afterStep_of_apart hc)
          exact .inr (.inr ⟨⟨hr, hp⟩, w, i, t, hm, hd, hx, hc, Host.Outcome.next.inj this⟩)
  · rw [step_of_ended hr] at h
    exact .inl ⟨hr, (Host.Outcome.next.inj h).symm⟩

/-- Everything a step that faults can have met, in the order of its checks. -/
theorem step_fault_cases {s : State} {r : Fault} (h : step s = .fault r) :
    s.fetches ∧
    ((s.memRead s.pc = none ∧ r = .outOfBoundsMemoryAccess ⟨s.pc, none, s.steps⟩ s.pc) ∨
     ∃ w, s.memRead s.pc = some w ∧
      ((∃ e, decode w = .error e ∧ r = .unknownInstruction ⟨s.pc, some w, s.steps⟩) ∨
       ∃ i, decode w = .ok i ∧
        (exec i (s.setPc (nextWord s.pc)) = .fault r ∨
         ∃ t, exec i (s.setPc (nextWord s.pc)) = .next t ∧ t.collides = true ∧
          r = .stackHeapCollision ⟨s.pc, some w, t.steps + 1⟩ (t.x hpReg) (t.x spReg)))) := by
  by_cases hr : s.status = .running
  swap
  · rw [step_of_ended hr] at h; exact absurd h (by simp)
  by_cases hp : s.pc = s.cfg.sentinel
  · rw [step_of_sentinel hr hp] at h; exact absurd h (by simp)
  refine ⟨⟨hr, hp⟩, ?_⟩
  rw [step_of_fetches ⟨hr, hp⟩] at h
  cases hm : s.memRead s.pc with
  | none =>
    rw [engineStep_of_fetch_none hm] at h
    exact .inl ⟨rfl, (Host.Outcome.fault.inj h).symm⟩
  | some w =>
    refine .inr ⟨w, rfl, ?_⟩
    cases hd : decode w with
    | error e =>
      rw [engineStep_of_unknown hm hd] at h
      exact .inl ⟨e, rfl, (Host.Outcome.fault.inj h).symm⟩
    | ok i =>
      refine .inr ⟨i, rfl, ?_⟩
      rw [engineStep_of_decode hm hd] at h
      cases hx : exec i (s.setPc (nextWord s.pc)) with
      | fault r' => rw [hx] at h; exact .inl (congrArg _ (Host.Outcome.fault.inj h))
      | refused r' => exact absurd hx (exec_not_refused _ _ _)
      | next t =>
        rw [hx] at h
        cases hc : t.collides with
        | false => exact absurd (h.symm.trans (afterStep_of_apart hc)) (by simp)
        | true =>
          have := h.symm.trans (afterStep_of_collides hc)
          rw [hm] at this
          exact .inr ⟨t, rfl, hc, Host.Outcome.fault.inj this⟩

/-- No step is refused. -/
theorem step_not_refused (s : State) (r : Refusal) : step s ≠ .refused r := by
  intro h
  by_cases hr : s.status = .running
  · by_cases hp : s.pc = s.cfg.sentinel
    · rw [step_of_sentinel hr hp] at h; exact absurd h (by simp)
    · rw [step_of_fetches ⟨hr, hp⟩] at h
      cases he : engineStep s with
      | fault r => rw [he] at h; exact absurd h (by simp)
      | refused r => exact engineStep_not_refused s r he
      | next t =>
        rw [he] at h
        cases hc : t.collides with
        | true => exact absurd (h.symm.trans (afterStep_of_collides hc)) (by simp)
        | false => exact absurd (h.symm.trans (afterStep_of_apart hc)) (by simp)
  · rw [step_of_ended hr] at h; exact absurd h (by simp)

/-! ## The run -/

theorem runLoop_succ_next {s s' : State} (h : step s = .next s') (k : Nat) : runLoop (k + 1) s = runLoop k s' := by
  change iterate s = _ at h
  simp [runLoop, h]

theorem runLoop_succ_fault {s : State} {r : Fault} (h : step s = .fault r) (k : Nat) :
    runLoop (k + 1) s = s.fail r := by
  change iterate s = _ at h
  simp [runLoop, h]

/-- An ended run stays ended. -/
theorem runLoop_of_ended {s : State} (h : s.status ≠ .running) (k : Nat) : runLoop k s = s := by
  induction k with
  | zero => rfl
  | succ k ih => rw [runLoop_succ_next (step_of_ended h), ih]

/-! ## Samples -/

theorem sampleMarks_bound (m : Option Marks) (sp hp : Word) : (sampleMarks m sp hp).bound sp hp := by
  cases m with
  | none => simp [sampleMarks, Marks.bound]
  | some k =>
    simp only [sampleMarks, Marks.bound, minWord, maxWord]
    refine ⟨?_, ?_, ?_, ?_⟩ <;> split <;> omega

end Machine
end Sys2Proof
end

