-- ==== Sys2Proof/Tests/Slice0.lean ====
section
/-! SUPPORT. Small tests whose expected results come from the spec (95_test_vectors.md and the rules' own examples),
and a witness for the hypotheses of each statement. -/

namespace Sys2Proof
namespace Tests
open Sys2Proof.Machine

/-! ## Helpers: the conventions of 95_test_vectors.md section 0 -/

/-- MEM_SIZE = 0x1000 and the defaults for the rest. -/
def cfg : Config := { Config.atReset with memSize := ⟨0x1000, by decide⟩ }

/-- A start state with the registers seeded and the words at address 0. -/
def start (regs : List (Reg × Word)) (w0 : Word) (w1 : Word := 0) : State :=
  regs.foldl (fun s e => s.setX e.1 e.2)
    { State.reset with cfg := cfg, mem := Memory.writeWord (Memory.writeWord [] 0 w0) 4 w1 }

/-- What a next state holds. -/
def got {α : Type} (f : State → α) : Answer → Option α
  | .next s => some (f s)
  | _       => none

/-- The fault an answer stops with. -/
def faultOf : Answer → Option Fault
  | .fault r => some r
  | _        => none

/-! ## WellFormed: each check refuses an ill-formed term -/

theorem test_wf_lw_refuses_wide_offset : (Instr.lw 1 2 32768).wf = false := by decide
theorem test_wf_sw_refuses_wide_offset : (Instr.sw 1 2 (-32769)).wf = false := by decide
theorem test_wf_beq_refuses_wide_offset : (Instr.beq 1 2 32768).wf = false := by decide
theorem test_wf_bne_refuses_wide_offset : (Instr.bne 1 2 (-32769)).wf = false := by decide
theorem test_wf_accepts_both_ends : (Instr.lw 31 0 (-32768)).wf && (Instr.bne 0 31 32767).wf = true := by decide

/-! ## Decoding: one word of every constructor, written out from the bit patterns of R80 -/

theorem test_decode_add : decode 0b00000000001000100001100000100000#32 = .ok (.add 1 2 3) := by decide
theorem test_decode_sub : decode 0b00000000001001000000100000100010#32 = .ok (.sub 1 4 1) := by decide
theorem test_decode_mult : decode 0b00000000001000101111100000011000#32 = .ok (.mult 1 2) := by decide
theorem test_decode_multu : decode 0b00000000001000100000000000011001#32 = .ok (.multu 1 2) := by decide
theorem test_decode_div : decode 0b00000000001000100000000000011010#32 = .ok (.div 1 2) := by decide
theorem test_decode_divu : decode 0b00000000001000100000000000011011#32 = .ok (.divu 1 2) := by decide
theorem test_decode_mfhi : decode 0b00000011111111110011100000010000#32 = .ok (.mfhi 7) := by decide
theorem test_decode_mflo : decode 0b00000000000000000001100000010010#32 = .ok (.mflo 3) := by decide
theorem test_decode_lis : decode 0b00000000000000000010000000010100#32 = .ok (.lis 4) := by decide
theorem test_decode_slt : decode 0b00000000001000100001100000101010#32 = .ok (.slt 1 2 3) := by decide
theorem test_decode_sltu : decode 0b00000000001000100001100000101011#32 = .ok (.sltu 1 2 3) := by decide
theorem test_decode_jr : decode 0b00000011111000000000000000001000#32 = .ok (.jr 31) := by decide
theorem test_decode_jalr : decode 0b00000000100000001111100000001001#32 = .ok (.jalr 4) := by decide
theorem test_decode_lw : decode 0b10001100001000111111111111111100#32 = .ok (.lw 1 3 (-4)) := by decide
theorem test_decode_sw : decode 0b10101100001000100000000000000100#32 = .ok (.sw 1 2 4) := by decide
theorem test_decode_beq : decode 0b00010000001000100000000000000010#32 = .ok (.beq 1 2 2) := by decide
theorem test_decode_bne : decode 0b00010100001000001111111111111101#32 = .ok (.bne 1 0 (-3)) := by decide
/-- Vectors E1 to E6: nop, a shift amount, j, syscall, opcode 0x3F, or. -/
theorem test_decode_rejects : [0x00000000#32, 0x00221860#32, 0x08000000#32, 0x0000000C#32, 0xFC000000#32, 0x00211825#32].all
    (fun w => (decode w).toOption.isNone) = true := by decide
theorem test_encode_jalr : encode (.jalr 4) = 0x00800009#32 := by decide
theorem test_encode_bne : encode (.bne 1 0 (-3)) = 0x1420FFFD#32 := by decide
theorem test_decodeTableWord_lis : decodeTableWord 32 0x00002014 = some (.lis 4) := by decide
theorem test_decodeTableWord_zero : decodeTableWord 32 0 = none := by decide

/-! ## Steps: the vectors of 95_test_vectors.md -/

theorem test_V1_add : got (fun s => (s.x 3, s.pc, s.steps)) (step (start [(1, 5), (2, 3)] 0x00221820)) = some (8, 4, 1) := by decide
theorem test_V4_add_wraps : got (fun s => s.x 3) (step (start [(1, 0x7FFFFFFF), (2, 1)] 0x00221820)) = some 0x80000000 := by decide
theorem test_A7_sub : got (fun s => s.x 3) (step (start [(1, 0), (2, 0x80000000)] 0x00221822)) = some 0x80000000 := by decide
theorem test_A19_sub_to_zero : got (fun s => (s.x 0, s.gpr)) (step (start [(1, 9), (2, 3)] 0x00220022)) = some (0, (start [(1, 9), (2, 3)] 0).gpr) := by decide
theorem test_A9_slt : got (fun s => s.x 3) (step (start [(1, 0x80000000), (2, 0x7FFFFFFF)] 0x0022182A)) = some 1 := by decide
theorem test_A13_sltu : got (fun s => s.x 3) (step (start [(1, 0x80000000), (2, 0x7FFFFFFF)] 0x0022182B)) = some 0 := by decide
theorem test_M7_mult : got (fun s => (s.hi, s.lo)) (step (start [(1, 0x80000000), (2, 0x7FFFFFFF)] 0x00220018)) = some (0xC0000000, 0x80000000) := by decide
theorem test_M10_multu : got (fun s => (s.hi, s.lo)) (step (start [(1, 0xFFFFFFFF), (2, 0xFFFFFFFF)] 0x00220019)) = some (0xFFFFFFFE, 1) := by decide
theorem test_M14_div : got (fun s => (s.hi, s.lo)) (step (start [(1, 7), (2, 0xFFFFFFFE)] 0x0022001A)) = some (1, 0xFFFFFFFD) := by decide
theorem test_M19_div_by_zero : faultOf (step (start [(1, 7)] 0x0022001A)) = some (.divideByZero ⟨0, some 0x0022001A, 0⟩) := by decide
theorem test_M20_divu : got (fun s => (s.hi, s.lo)) (step (start [(1, 0xFFFFFFF9), (2, 2)] 0x0022001B)) = some (1, 0x7FFFFFFC) := by decide
theorem test_E8_mfhi : got (fun s => s.x 7) (step { start [] 0x03FF3810 with hi := 0xFFFFFFFF }) = some 0xFFFFFFFF := by decide
theorem test_mflo : got (fun s => s.x 3) (step { start [] 0x00001812 with lo := 15 }) = some 15 := by decide
theorem test_V5_lis : got (fun s => (s.x 4, s.pc)) (step (start [] 0x00002014 1)) = some (1, 8) := by decide
theorem test_L2_lis_to_zero : got (fun s => (s.x 0, s.pc)) (step (start [] 0x00000014 0x12345678)) = some (0, 8) := by decide
theorem test_lw_unaligned_own_code : got (fun s => s.x 3) (step (start [(1, 1)] 0x8C230000 0x55443322)) = some 0x228C2300 := by decide
theorem test_L10_lw_last_word : faultOf (step (start [(1, 0xFFD)] 0x8C230000)) = some (.outOfBoundsMemoryAccess ⟨0, some 0x8C230000, 0⟩ 0xFFD) := by decide
theorem test_L13_sw : got (fun s => (s.mem.read 0x100, s.mem.read 0x103, s.mem.read 0x104)) (step (start [(1, 0x100), (2, 0x44332211)] 0xAC220000)) = some (0x11, 0x44, 0) := by decide
theorem test_L16_sw_emits : got (fun s => (s.out, s.mem)) (step (start [(1, 0xFFFF0008), (2, 0x0A)] 0xAC220004)) = some ([0x0000000A], (start [] 0xAC220004).mem) := by decide
theorem test_J2_jr : got (fun s => s.pc) (step (start [(1, 0xFFFFFFF0)] 0x00200008)) = some 0xFFFFFFF0 := by decide
theorem test_E9_jalr : got (fun s => (s.x 31, s.pc)) (step (start [(4, 0x18)] 0x0080F809)) = some (4, 0x18) := by decide
theorem test_J4_jalr_link_first : got (fun s => (s.x 31, s.pc)) (execJalr 31 { start [(31, 0x40)] 0 with pc := 0x24, cfg := { cfg with jalrOrder := .linkFirst } }) = some (0x24, 0x24) := by decide
theorem test_J8_beq_wraps : got (fun s => s.pc) (step (start [] 0x1000FFFE)) = some 0xFFFFFFFC := by decide
theorem test_J6_beq_not_taken : got (fun s => s.pc) (execBeq 1 2 2 { start [(1, 7), (2, 8)] 0 with pc := 0x24 }) = some 0x24 := by decide
theorem test_J11_bne : got (fun s => s.pc) (execBne 1 0 (-3) { start [(1, 2)] 0 with pc := 0x18 }) = some 0x0C := by decide

/-! ## The run loop -/

theorem test_E1_nop_is_illegal : faultOf (step (start [] 0)) = some (.unknownInstruction ⟨0, some 0, 0⟩) := by decide
theorem test_E12_fetch_out_of_bounds : faultOf (step { State.reset with cfg := { cfg with memSize := ⟨3, by decide⟩ } }) = some (.outOfBoundsMemoryAccess ⟨0, none, 0⟩ 0) := by decide
theorem test_V11_collision : faultOf (step (start [(30, 0x100), (1, 4)] 0x03C1E020)) = some (.stackHeapCollision ⟨0, some 0x03C1E020, 1⟩ 0x104 0x100) := by decide
theorem test_R1_equal_pointers : got (fun s => (s.marks, s.steps)) (step (start [(28, 0x100), (30, 0x100)] 0x03E00008)) = some (some ⟨0x100, 0x100, 0x100, 0x100⟩, 1) := by decide
theorem test_V12_halts : ((runLoop 2 (start [] 0x03E00008)).status, (runLoop 2 (start [] 0x03E00008)).steps) = (.halted, 1) := by decide
/-- STEPS, GPR 3, PC and HI in the report of a normal end. -/
def atNormalEnd : Option Report → Option (Nat × Word × Word × Word)
  | some (.halted n _ g pc hi _ _) => some (n, g[3], pc, hi)
  | _ => none
/-- V12 with a value in GPR 3: what the host reads at the normal end. -/
theorem test_V12_report : atNormalEnd (runLoop 2 (start [(3, 7)] 0x03E00008)).report =
    some (1, 7, 0x8123456C, 0) := by decide
theorem test_J14_halts_at_once : got (fun s => (s.status, s.steps)) (step { State.reset with cfg := { cfg with sentinel := 0 } }) = some (.halted, 0) := by decide
theorem test_reset_runs_a_placed_word : got (fun s => s.x 4) (step (State.reset.withFetchWord 64 0x0000000100002014)) = some 1 := by decide

/-! ## Witnesses of the statements' hypotheses -/

/-- A state on which most instructions complete: PC holds npc = 4. -/
def at4 (regs : List (Reg × Word)) : State := { start regs 0 with pc := 4 }

theorem witness_div_by_zero : (at4 [(1, 7)]).x 2 = 0 := by decide
theorem witness_div_overflow :
    ({ at4 [(1, 0x80000000), (2, 0xFFFFFFFF)] with cfg := { cfg with divOverflow := .fault } } : State).x 1 = 0x80000000 ∧
    ({ at4 [(1, 0x80000000), (2, 0xFFFFFFFF)] with cfg := { cfg with divOverflow := .fault } } : State).x 2 = 0xFFFFFFFF ∧
    ({ at4 [(1, 0x80000000), (2, 0xFFFFFFFF)] with cfg := { cfg with divOverflow := .fault } } : State).cfg.divOverflow = .fault := by decide
theorem witness_div_completes : (at4 [(1, 7), (2, 2)]).x 2 ≠ 0 ∧
    ¬ ((at4 [(1, 7), (2, 2)]).x 1 = 0x80000000 ∧ (at4 [(1, 7), (2, 2)]).x 2 = 0xFFFFFFFF ∧ (at4 [(1, 7), (2, 2)]).cfg.divOverflow = .fault) := by decide
theorem witness_div_wraps : (at4 [(1, 0x80000000), (2, 0xFFFFFFFF)]).x 2 ≠ 0 ∧ (at4 [(1, 0x80000000), (2, 0xFFFFFFFF)]).x 1 = 0x80000000 ∧
    (at4 [(1, 0x80000000), (2, 0xFFFFFFFF)]).x 2 = 0xFFFFFFFF ∧ (at4 [(1, 0x80000000), (2, 0xFFFFFFFF)]).cfg.divOverflow ≠ .fault := by decide
theorem witness_DivisionLaw : got (fun s => (s.hi, s.lo)) (exec (.div 1 2) (at4 [(1, 0xFFFFFFF9), (2, 2)])) = some (0xFFFFFFFF, 0xFFFFFFFD) ∧
    ¬ ((at4 [(1, 0xFFFFFFF9), (2, 2)]).x 1 = 0x80000000 ∧ (at4 [(1, 0xFFFFFFF9), (2, 2)]).x 2 = 0xFFFFFFFF) := by decide
/-- `add` completes: the hypotheses of the statements over all instructions but some others. -/
theorem witness_exec_next : exec (.add 1 2 3) (at4 [(1, 5)]) = .next ((at4 [(1, 5)]).setX 3 5) := by
  show Host.Outcome.next _ = _
  exact congrArg _ (by decide)
theorem witness_exec_not_listed : (∀ rs rt, Instr.add 1 2 3 ≠ .mult rs rt ∧ Instr.add 1 2 3 ≠ .multu rs rt ∧ Instr.add 1 2 3 ≠ .div rs rt ∧ Instr.add 1 2 3 ≠ .divu rs rt) ∧
    (∀ rd, Instr.add 1 2 3 ≠ .mfhi rd ∧ Instr.add 1 2 3 ≠ .mflo rd) ∧ (∀ rs rt imm, Instr.add 1 2 3 ≠ .sw rs rt imm) ∧
    (∀ rs, Instr.add 1 2 3 ≠ .jr rs ∧ Instr.add 1 2 3 ≠ .jalr rs) := by simp
theorem witness_lis_reads : (at4 []).pc.toNat + 3 < (at4 []).cfg.memSize.val := by decide
theorem witness_lis_last_word : ({ at4 [] with pc := 0xFFC } : State).pc.toNat + 3 < cfg.memSize.val := by decide
theorem witness_lis_faults : cfg.memSize.val ≤ ({ at4 [] with pc := 0x1000 } : State).pc.toNat + 3 := by decide
theorem witness_lw_reads : (wrap32 (((at4 [(1, 0x1000)]).x 1).toInt + (0xFFFC#16).toInt)).toNat + 3 < (at4 [(1, 0x1000)]).cfg.memSize.val := by decide
theorem witness_lw_faults : (at4 [(1, 4)]).cfg.memSize.val ≤ (wrap32 (((at4 [(1, 4)]).x 1).toInt + (0xFFF8#16).toInt)).toNat + 3 := by decide
theorem witness_sw_emits : wrap32 (((at4 [(1, 0xFFFF0008)]).x 1).toInt + (4#16).toInt) = (at4 [(1, 0xFFFF0008)]).cfg.outputAddr := by decide
theorem witness_sw_stores : wrap32 (((at4 [(1, 0xFFC)]).x 1).toInt + (0#16).toInt) ≠ (at4 [(1, 0xFFC)]).cfg.outputAddr ∧
    (wrap32 (((at4 [(1, 0xFFC)]).x 1).toInt + (0#16).toInt)).toNat + 3 < (at4 [(1, 0xFFC)]).cfg.memSize.val := by decide
theorem witness_sw_faults : wrap32 (((at4 [(1, 0xFFFF000D)]).x 1).toInt + (0#16).toInt) ≠ (at4 [(1, 0xFFFF000D)]).cfg.outputAddr ∧
    (at4 [(1, 0xFFFF000D)]).cfg.memSize.val ≤ (wrap32 (((at4 [(1, 0xFFFF000D)]).x 1).toInt + (0#16).toInt)).toNat + 3 := by decide
theorem witness_MemRead : (at4 []).cfg.memSize.val ≤ (0xFFD#32).toNat + 3 ∧ (0xFFC#32).toNat + 3 < (at4 []).cfg.memSize.val := by decide
theorem witness_MemWrite : 0xFFFF000C#32 = (at4 []).cfg.outputAddr ∧ (0xFFD#32 ≠ (at4 []).cfg.outputAddr ∧ (at4 []).cfg.memSize.val ≤ (0xFFD#32).toNat + 3) ∧
    (0xFFC#32 ≠ (at4 []).cfg.outputAddr ∧ (0xFFC#32).toNat + 3 < (at4 []).cfg.memSize.val) := by decide
/-- The example of R48, with the word at 0x100. -/
theorem witness_OverlappingRead : 0x100#32 ≠ (at4 []).cfg.outputAddr ∧ (0x100#32).toNat + 4 < (at4 []).cfg.memSize.val ∧
    ((at4 []).memWrite 0x100 0x44332211).isSome = true := by decide
theorem witness_canonical_memories : Memory.wf [(1, 2#8), (5, 7#8)] ∧ ∀ a, Memory.read [(1, 2#8), (5, 7#8)] a = Memory.read [(1, 2#8), (5, 7#8)] a := by
  exact ⟨by decide, fun _ => rfl⟩
theorem witness_FetchSeesStoredWord : effectiveAddress ((at4 [(2, 0x00221820)]).x 0) 16 ≠ (at4 [(2, 0x00221820)]).cfg.outputAddr ∧
    (got (fun s => s.mem.read 16) (exec (.sw 0 2 16) (at4 [(2, 0x00221820)])) = some 0x20 ∧ decode ((at4 [(2, 0x00221820)]).x 2) = .ok (.add 1 2 3)) := by decide
theorem witness_jalr_clauses : (4 : Reg) ≠ 31 ∧ (at4 []).cfg.jalrOrder = .readFirst ∧
    ({ at4 [] with cfg := { cfg with jalrOrder := .linkFirst } } : State).cfg.jalrOrder = .linkFirst := by decide
theorem witness_branch_clauses : (at4 [(1, 7), (2, 7)]).x 1 = (at4 [(1, 7), (2, 7)]).x 2 ∧ (at4 [(1, 7), (2, 8)]).x 1 ≠ (at4 [(1, 7), (2, 8)]).x 2 := by decide
theorem witness_wf : (Instr.lw 1 3 (-32768)).wf = true := by decide
/-- Both formats, a key and an opcode of the tables, and one of each outside them. -/
theorem witness_dispatch : (0x00221820#32).extractLsb' 26 6 = 0 ∧ (0x00221820#32).extractLsb' 0 11 = 0x020#11 ∧
    (0x8C230000#32).extractLsb' 26 6 = 0x23#6 ∧
    (0x00221860#32).extractLsb' 0 11 ∉ [0x008#11, 0x009#11, 0x010#11, 0x012#11, 0x014#11, 0x018#11, 0x019#11, 0x01A#11, 0x01B#11, 0x020#11, 0x022#11, 0x02A#11, 0x02B#11] ∧
    (0x08000000#32).extractLsb' 26 6 ∉ [0x04#6, 0x05#6, 0x23#6, 0x2B#6] ∧ (0x08000000#32).extractLsb' 26 6 ≠ 0 := by decide
theorem witness_row : (Instr.add 0 0 0).row ∈ encTable ∧ 0x00221820#32 &&& (Instr.add 0 0 0).row.mask = (Instr.add 0 0 0).row.value := by decide
theorem witness_nonzero_register : (31 : Reg) ≠ 0 ∧ (30 : Reg) ≠ 31 := by decide
theorem witness_step_next : got (fun s => s.steps) (step (start [] 0x03E00008)) = some 1 := by decide
theorem witness_exec_faults : faultOf (exec (.lw 0 1 (-1)) (at4 [])) = some (.outOfBoundsMemoryAccess ⟨0, some 0, 0⟩ 0xFFFFFFFF) ∧
    faultOf (exec (.divu 1 0) (at4 [])) = some (.divideByZero ⟨0, some 0, 0⟩) ∧ faultOf (exec (.div 1 0) (at4 [])) = some (.divideByZero ⟨0, some 0, 0⟩) ∧
    faultOf (exec (.lis 1) { at4 [] with pc := 0xFFD }) = some (.outOfBoundsMemoryAccess ⟨0xFF9, some 0, 0⟩ 0xFFD) ∧
    faultOf (exec (.sw 0 1 (-4)) (at4 [])) = some (.outOfBoundsMemoryAccess ⟨0, some 0, 0⟩ 0xFFFFFFFC) := by decide
/-- A running state that fetches `add $3, $1, $2`. -/
theorem witness_fetches : (start [] 0x00221820).status = .running ∧ (start [] 0x00221820).pc ≠ (start [] 0x00221820).cfg.sentinel ∧
    (start [] 0x00221820).memRead (start [] 0x00221820).pc = some 0x00221820 ∧ decode 0x00221820 = .ok (.add 1 2 3) := by decide
/-- The clauses of the bookkeeping: pointers apart, pointers crossed, a fault of the instruction. -/
theorem witness_bookkeeping :
    got (fun t => decide ((t.x 28).toNat ≤ (t.x 30).toNat)) (exec (.add 1 2 3) { start [] 0x00221820 with pc := (start [] 0x00221820).pc + 4#32 }) = some true ∧
    got (fun t => decide ((t.x 30).toNat < (t.x 28).toNat)) (exec (.add 30 1 28) { start [(30, 0x100), (1, 4)] 0x03C1E020 with pc := (start [] 0).pc + 4#32 }) = some true ∧
    (faultOf (exec (.div 1 2) { start [(1, 7)] 0x0022001A with pc := (start [] 0).pc + 4#32 })).isSome = true := by decide
theorem witness_checks_in_order : ({ start [] 0 with pc := 0x8123456C } : State).pc = cfg.sentinel ∧
    (0x1000#32 ≠ cfg.sentinel ∧ cfg.memSize.val ≤ (0x1000#32).toNat + 3) ∧
    ((start [] 0).memRead 0 = some 0 ∧ decode 0 = .error (.unknownFunction 0)) := by decide
theorem witness_no_row : encTable.all (fun r => decide (0x00000000#32 &&& r.mask ≠ r.value)) = true ∧
    (start [] 0).memRead (start [] 0).pc = some 0 ∧ faultOf (step (start [] 0)) = some (.unknownInstruction ⟨0, some 0, 0⟩) := by decide
theorem witness_engine_step_completes :
    got (fun t => decide ((t.x 30).toNat < (t.x 28).toNat)) (engineStep (start [(30, 0x100), (1, 4)] 0x03C1E020)) = some true ∧
    got (fun t => decide ((t.x 28).toNat ≤ (t.x 30).toNat)) (engineStep (start [(30, 0x100), (28, 0x100)] 0x00221820)) = some true := by decide
theorem witness_sampled_before : ({ start [] 0x00221820 with marks := some ⟨3, 5, 0, 0⟩, steps := 1 } : State).marks = some ⟨3, 5, 0, 0⟩ ∧
    got (fun s => s.marks) (step { start [] 0x00221820 with marks := some ⟨3, 5, 0, 0⟩, steps := 1 }) = some (some ⟨0, 5, 0, 0⟩) := by decide
theorem witness_ended : ({ start [] 0 with status := .halted } : State).status ≠ .running := by decide
theorem witness_normal_end : (start [] 0x03E00008).status = .running ∧ (runLoop 2 (start [] 0x03E00008)).status = .halted := by decide
theorem witness_faulted_run : (start [] 0).status = .running ∧ (runLoop 1 (start [] 0)).status = .faulted (.unknownInstruction ⟨0, some 0, 0⟩) := by decide
/-- A state that meets the invariant after a step and steps again. -/
theorem witness_inv : (start [] 0x00221820).mem.wf ∧ (start [] 0x00221820).mem.within (start [] 0x00221820).cfg.memSize.val ∧
    (start [] 0x00221820).gpr[0] = 0 ∧ (start [] 0x00221820).marks = none ∧ (start [] 0x00221820).steps = 0 ∧
    got (fun s => s.steps) (step (start [] 0x00221820)) = some 1 := by decide
theorem witness_StepKeepsInvariant : (start [] 0x00221820).Inv where
  memCanonical   := witness_inv.1
  memWithin      := witness_inv.2.1
  gprZero        := witness_inv.2.2.1
  marksSampled   := by decide
  marksBound     := fun k hk => absurd (witness_inv.2.2.2.1.symm.trans hk) (by simp)
  heapBelowStack := fun h => absurd witness_inv.2.2.2.2.1 h
theorem witness_launch : 0x1000 ≤ 0x7FFF8000 ∧ [0x20#8, 0x18#8, 0x22#8, 0x00#8].length ≤ 0x1000 := by decide
theorem witness_launch_refused : 0x7FFF8000 < 0x80000000 ∧ (2 ≤ 0x7FFF8000 ∧ 2 < [0x20#8, 0x18#8, 0x22#8].length) := by decide
theorem witness_LaunchMeetsInvariant :
    (launch 0x1000 cfg (some [0x20#8, 0x18#8, 0x22#8, 0x00#8]) [(1, 5)]).toOption.isSome = true := by decide
/-- Two chunks, of one word and of none, at 0x80..0x8B: a heap in one state, a stack in the other. -/
def twoChunks (regs : List (Reg × Word)) : State :=
  { start regs 0 with
    cfg := { cfg with heapOrigin := 0x80, stackTop := 0x8C },
    mem := Memory.writeWord (Memory.writeWord (Memory.writeWord [] 0x80 8) 0x84 0xAB) 0x88 4 }
theorem witness_heap_chunks : (((twoChunks [(28, 0x8C)]).mem.readWord 0x80).toNat = 4 * (1 + 1) ∧
      ((twoChunks [(28, 0x8C)]).mem.readWord (0x80 + 4 * (1 + 1))).toNat = 4 * (0 + 1) ∧ True) ∧
    ((twoChunks [(28, 0x8C)]).x 28).toNat = (twoChunks [(28, 0x8C)]).cfg.heapOrigin.toNat + chunksSize [1, 0] ∧
    ((twoChunks [(28, 0x8C)]).x 28).toNat ≤ (twoChunks [(28, 0x8C)]).cfg.memSize.val := by decide
theorem witness_HeapWalk : ChunksFrom (twoChunks [(28, 0x8C)]).mem (twoChunks [(28, 0x8C)]).cfg.heapOrigin.toNat [1, 0] :=
  witness_heap_chunks.1
theorem witness_stack_chunks : (((twoChunks [(30, 0x80)]).mem.readWord 0x80).toNat = 4 * (1 + 1) ∧
      ((twoChunks [(30, 0x80)]).mem.readWord (0x80 + 4 * (1 + 1))).toNat = 4 * (0 + 1) ∧ True) ∧
    (twoChunks [(30, 0x80)]).cfg.stackTop.toNat = ((twoChunks [(30, 0x80)]).x 30).toNat + chunksSize [1, 0] ∧
    (twoChunks [(30, 0x80)]).cfg.stackTop.toNat ≤ (twoChunks [(30, 0x80)]).cfg.memSize.val := by decide
theorem witness_StackWalk : ChunksFrom (twoChunks [(30, 0x80)]).mem ((twoChunks [(30, 0x80)]).x 30).toNat [1, 0] :=
  witness_stack_chunks.1
theorem test_heapWalk_two_chunks : (twoChunks [(28, 0x8C)]).heapWalk = [(0x84, 0xAB)] := by decide

end Tests
end Sys2Proof
end

section
/-! SUPPORT. The launch (70_reset_and_hazards.md R240): what its blank state holds, what the seeds change and leave
unchanged, what the laid-out image reads as; and with them the reset state of R34. -/

namespace Sys2Proof
namespace Machine

/-! ## The image in memory -/

/-- A byte of 0x00 is not listed, so it hides nothing of the bytes laid out after it. -/
theorem Memory.read_ofBytes_cons (a c : Nat) (b : Byte) (bs : List Byte) :
    (Memory.ofBytes a (b :: bs)).read c = if c = a ∧ b ≠ 0 then b else (Memory.ofBytes (a + 1) bs).read c := by
  rw [Memory.ofBytes]
  split
  · next hb => rw [if_neg fun h => h.2 hb]
  · next hb => simp only [Memory.read, and_iff_left hb]

/-- Below its first address a laid-out image reads as zeros. -/
theorem Memory.read_ofBytes_of_lt {a c : Nat} (bs : List Byte) (h : c < a) : (Memory.ofBytes a bs).read c = 0 := by
  induction bs generalizing a with
  | nil => rfl
  | cons b bs ih => rw [Memory.read_ofBytes_cons, if_neg fun hc => h.ne hc.1, ih (Nat.lt_succ_of_lt h)]

/-- A laid-out image reads as its bytes, and as zeros after them. -/
theorem Memory.read_ofBytes_add (a i : Nat) (bs : List Byte) : (Memory.ofBytes a bs).read (a + i) = bs.getD i 0 := by
  induction bs generalizing a i with
  | nil => rfl
  | cons b bs ih =>
    rw [Memory.read_ofBytes_cons]
    cases i with
    | zero =>
      rw [Nat.add_zero, Memory.read_ofBytes_of_lt bs (Nat.lt_add_one a)]
      by_cases hb : b = 0
      · rw [if_neg fun h => h.2 hb, hb, List.getD_cons_zero]
      · rw [if_pos ⟨rfl, hb⟩, List.getD_cons_zero]
    | succ i =>
      rw [if_neg fun h => absurd h.1 (by omega), show a + (i + 1) = a + 1 + i by omega, ih, List.getD_cons_succ]

/-! ## The blank state -/

section
variable (cfg : Config) (image : List Byte)

@[simp] theorem blank_cfg    : (State.blank cfg image).cfg = cfg := rfl
@[simp] theorem blank_pc     : (State.blank cfg image).pc = 0 := rfl
@[simp] theorem blank_hi     : (State.blank cfg image).hi = 0 := rfl
@[simp] theorem blank_lo     : (State.blank cfg image).lo = 0 := rfl
@[simp] theorem blank_mem    : (State.blank cfg image).mem = Memory.ofBytes 0 image := rfl
@[simp] theorem blank_out    : (State.blank cfg image).out = [] := rfl
@[simp] theorem blank_status : (State.blank cfg image).status = .running := rfl
@[simp] theorem blank_steps  : (State.blank cfg image).steps = 0 := rfl
@[simp] theorem blank_marks  : (State.blank cfg image).marks = none := rfl
@[simp] theorem blank_x (i : Reg) : (State.blank cfg image).x i = 0 := by simp [State.x, State.blank]

theorem blank_mem_read (a : Nat) : (State.blank cfg image).mem.read a = image.getD a 0 := by
  simpa using Memory.read_ofBytes_add 0 a image

end

/-! ## Seeding -/

section
variable (s : State) (seeds : List (Reg × Word))

/-- Seeding changes the register file alone. -/
theorem seeded_eq_with_gpr : s.seeded seeds = { s with gpr := (s.seeded seeds).gpr } := by
  induction seeds generalizing s with
  | nil => rfl
  | cons seed seeds ih => exact ih (s.setX seed.1 seed.2)

@[simp] theorem seeded_cfg    : (s.seeded seeds).cfg = s.cfg := by rw [seeded_eq_with_gpr]
@[simp] theorem seeded_pc     : (s.seeded seeds).pc = s.pc := by rw [seeded_eq_with_gpr]
@[simp] theorem seeded_hi     : (s.seeded seeds).hi = s.hi := by rw [seeded_eq_with_gpr]
@[simp] theorem seeded_lo     : (s.seeded seeds).lo = s.lo := by rw [seeded_eq_with_gpr]
@[simp] theorem seeded_mem    : (s.seeded seeds).mem = s.mem := by rw [seeded_eq_with_gpr]
@[simp] theorem seeded_out    : (s.seeded seeds).out = s.out := by rw [seeded_eq_with_gpr]
@[simp] theorem seeded_status : (s.seeded seeds).status = s.status := by rw [seeded_eq_with_gpr]
@[simp] theorem seeded_steps  : (s.seeded seeds).steps = s.steps := by rw [seeded_eq_with_gpr]
@[simp] theorem seeded_marks  : (s.seeded seeds).marks = s.marks := by rw [seeded_eq_with_gpr]

/-- A seeded register reads as its last seed, any other register as before. -/
theorem seeded_x {i : Reg} (hi : i ≠ 0) :
    (s.seeded seeds).x i = ((seeds.reverse.find? (fun e => e.1 = i)).map Prod.snd).getD (s.x i) := by
  induction seeds generalizing s with
  | nil => rfl
  | cons seed seeds ih =>
    have later : (s.seeded (seed :: seeds)).x i =
        ((seeds.reverse.find? (fun e => e.1 = i)).map Prod.snd).getD ((s.setX seed.1 seed.2).x i) :=
      ih (s.setX seed.1 seed.2)
    rw [later, List.reverse_cons, List.find?_append]
    cases seeds.reverse.find? (fun e => e.1 = i) with
    | some found => rfl
    | none =>
      by_cases he : seed.1 = i
      · subst he; simp [hi]
      · simp [he, setX_x_other s seed.1 seed.2 (Ne.symm he)]

end

/-! ## The launch -/

/-- With MEM_SIZE in range and an image that fits, a launch runs R240's steps: memory, zeros, seeds, SENTINEL. -/
theorem launch_eq_ok {size : Nat} (params : Config) {image : List Byte} (seeds : List (Reg × Word))
    (hsize : size < maxMemSize + 1) (himage : image.length ≤ size) :
    launch size params (some image) seeds =
      .ok (((State.blank { params with memSize := ⟨size, hsize⟩ } image).seeded seeds).setX linkReg
        params.sentinel) := by
  simp only [launch, dif_pos hsize, if_pos himage]

/-- Settles O51: SENTINEL goes into GPR 31 over any seed of it, every other register reads as the seeding left it, and
neither the seeding nor SENTINEL's write touches anything but the registers. -/
theorem launchBuildsResetState : Obligations.LaunchBuildsResetState := by
  unfold Obligations.LaunchBuildsResetState
  intro size params image seeds hsize himage
  refine ⟨_, launch_eq_ok params seeds (Nat.lt_succ_of_le hsize) himage, x_zero _,
    setX_x_same _ linkReg _ (by decide), fun i h0 h31 => ?gpr, ?pc, ?hi, ?lo, fun a => ?mem, ?rest⟩
  case gpr => rw [setX_x_other _ _ _ h31, seeded_x _ _ h0, blank_x]
  case mem => rw [setX_mem, seeded_mem, blank_mem_read]
  all_goals simp

end Machine
end Sys2Proof
end

section
/-! The memory chapter (20_memory.md R43, R44): the four bytes of a word read and of a word written. -/

namespace Sys2Proof
namespace Machine

/-! ## Bytes of a word -/

/-- Byte `k + 1` of bits that end in a byte is byte `k` of what stands above it. -/
theorem extractLsb'_append_byte {n : Nat} (hi : BitVec n) (lo : Byte) (k : Nat) :
    (hi ++ lo).extractLsb' (8 * (k + 1)) 8 = hi.extractLsb' (8 * k) 8 :=
  BitVec.extractLsb'_append_eq_of_le (by omega)

/-- A word composed of four bytes has them, the first least significant (R43). -/
theorem byteOfWord_wordOfBytes (b0 b1 b2 b3 : Byte) :
    byteOfWord (wordOfBytes b0 b1 b2 b3) 0 = b0 ∧ byteOfWord (wordOfBytes b0 b1 b2 b3) 1 = b1 ∧
    byteOfWord (wordOfBytes b0 b1 b2 b3) 2 = b2 ∧ byteOfWord (wordOfBytes b0 b1 b2 b3) 3 = b3 := by
  have low {n : Nat} (hi : BitVec n) (lo : Byte) : (hi ++ lo).extractLsb' 0 8 = lo :=
    BitVec.extractLsb'_append_eq_right
  have top (hi lo : Byte) : (hi ++ lo).extractLsb' 8 8 = hi := BitVec.extractLsb'_append_eq_left
  refine ⟨low _ b0, ?byte1, ?byte2, ?byte3⟩
  case byte1 =>
    exact (extractLsb'_append_byte (b3 ++ b2 ++ b1) b0 0).trans (low _ b1)
  case byte2 =>
    exact (extractLsb'_append_byte (b3 ++ b2 ++ b1) b0 1).trans
      ((extractLsb'_append_byte (b3 ++ b2) b1 0).trans (low b3 b2))
  case byte3 =>
    exact (extractLsb'_append_byte (b3 ++ b2 ++ b1) b0 2).trans
      ((extractLsb'_append_byte (b3 ++ b2) b1 1).trans (top b3 b2))

/-- Byte `k` of a word in memory is the byte at its address plus `k` (R43). -/
theorem Memory.byteOfWord_readWord (m : Memory) (a k : Nat) (hk : k < 4) :
    byteOfWord (m.readWord a) k = m.read (a + k) := by
  obtain ⟨h0, h1, h2, h3⟩ := byteOfWord_wordOfBytes (m.read a) (m.read (a + 1)) (m.read (a + 2)) (m.read (a + 3))
  match k, hk with
  | 0, _ => exact h0
  | 1, _ => exact h1
  | 2, _ => exact h2
  | 3, _ => exact h3

/-- A word store puts byte `k` of the word at its address plus `k` (R44). -/
theorem Memory.read_writeWord_add (m : Memory) (a : Nat) (v : Word) (k : Nat) (hk : k < 4) :
    (m.writeWord a v).read (a + k) = byteOfWord v k := by
  rw [Memory.read_writeWord]
  interval_cases k <;> simp

/-! ## MemWrite and MemRead -/

/-- Settles O19: the address selects the port before any bounds check; elsewhere the bounds decide between the fault and
the store, whose bytes are those of `Memory.writeWord`. -/
theorem memWriteStoresOrEmits : Obligations.MemWriteStoresOrEmits := by
  unfold Obligations.MemWriteStoresOrEmits
  intro s addr v
  refine ⟨fun hport => ?port, fun hport hout => memWrite_eq_none.2 ⟨hport, hout⟩, fun hport hin => ?store⟩
  case port =>
    rw [hport]
    exact memWrite_output s v
  case store =>
    have byte := Memory.read_writeWord_add s.mem addr.toNat v
    exact ⟨_, memWrite_of_inBounds hport hin v, byte 0 (by decide), byte 1 (by decide), byte 2 (by decide),
      byte 3 (by decide), fun _ ha => Memory.read_writeWord_other v ha⟩

/-- Settles O18: the unwrapped bound decides whether there is a value, and its bytes are those of `Memory.readWord`. -/
theorem memReadIsLittleEndianAndBounded : Obligations.MemReadIsLittleEndianAndBounded := by
  unfold Obligations.MemReadIsLittleEndianAndBounded
  intro s addr
  have byte := Memory.byteOfWord_readWord s.mem addr.toNat
  exact ⟨memRead_eq_none.2, fun hin => ⟨_, memRead_of_inBounds hin, byte 0 (by decide), byte 1 (by decide),
    byte 2 (by decide), byte 3 (by decide)⟩⟩

end Machine
end Sys2Proof
end

section
/-! The arithmetic and compare chapter (40_arith_compare.md R100 to R103): decoding by key, and the frame that every
instruction which only writes a register shares. -/

namespace Sys2Proof
namespace Machine

/-! ## Decoding -/

theorem decodeR_add (s t d : Reg) : decodeR 0x020#11 s t d = .ok (.add s t d) := rfl
theorem decodeR_sub (s t d : Reg) : decodeR 0x022#11 s t d = .ok (.sub s t d) := rfl
theorem decodeR_slt (s t d : Reg) : decodeR 0x02A#11 s t d = .ok (.slt s t d) := rfl
theorem decodeR_sltu (s t d : Reg) : decodeR 0x02B#11 s t d = .ok (.sltu s t d) := rfl

/-! ## Meanings -/

section
variable (rs rt rd : Reg) (s : State)

theorem exec_add :
    exec (.add rs rt rd) s = .next (s.setX rd (wrap32 ((s.x rs).toInt + (s.x rt).toInt))) := rfl

theorem exec_sub :
    exec (.sub rs rt rd) s = .next (s.setX rd (wrap32 ((s.x rs).toInt - (s.x rt).toInt))) := rfl

/-- A comparison's word is 1 or 0 as the compared proposition holds or not. -/
theorem boolWord_decide (p : Prop) [Decidable p] : boolWord (decide p) = if p then 1 else 0 := by
  by_cases hp : p <;> simp [boolWord, hp]

theorem exec_slt :
    exec (.slt rs rt rd) s = .next (s.setX rd (if (s.x rs).toInt < (s.x rt).toInt then 1 else 0)) := by
  rw [← boolWord_decide]
  rfl

theorem exec_sltu :
    exec (.sltu rs rt rd) s = .next (s.setX rd (if (s.x rs).toNat < (s.x rt).toNat then 1 else 0)) := by
  rw [← boolWord_decide]
  rfl

end

/-- An instruction whose whole effect is a register write completes and leaves everything else as it was. -/
theorem completes_writing_only_gpr {i : Instr} {s : State} {d : Reg} {v : Word}
    (h : exec i s = .next (s.setX d v)) :
    ∃ s', exec i s = .next s' ∧ OnlyGprWritten s s' d v ∧
      s'.pc = s.pc ∧ HiLoKept s s' ∧ MemoryKept s s' ∧ RunStateKept s s' :=
  ⟨s.setX d v, h, onlyGprWritten_setX s d v, setX_pc s d v, ⟨setX_hi s d v, setX_lo s d v⟩,
    memoryKept_of_eq (setX_mem s d v) (setX_out s d v),
    ⟨setX_cfg s d v, setX_status s d v, setX_steps s d v, setX_marks s d v⟩⟩

/-! ## The statements -/

/-- Settles O1: the key selects `add`, whose whole effect is the write of the wrapped sum. -/
theorem addWritesWrappedSum : Obligations.AddWritesWrappedSum := by
  unfold Obligations.AddWritesWrappedSum
  intro rs rt rd s
  exact ⟨(decode_fieldsR rs rt rd _).trans (decodeR_add rs rt rd),
    completes_writing_only_gpr (exec_add rs rt rd s)⟩

/-- Settles O2: the key selects `sub`, whose whole effect is the write of the wrapped difference. -/
theorem subWritesWrappedDifference : Obligations.SubWritesWrappedDifference := by
  unfold Obligations.SubWritesWrappedDifference
  intro rs rt rd s
  exact ⟨(decode_fieldsR rs rt rd _).trans (decodeR_sub rs rt rd),
    completes_writing_only_gpr (exec_sub rs rt rd s)⟩

/-- Settles O3: the key selects `slt`, whose whole effect is the write of the signed comparison's word. -/
theorem sltWritesSignedComparison : Obligations.SltWritesSignedComparison := by
  unfold Obligations.SltWritesSignedComparison
  intro rs rt rd s
  exact ⟨(decode_fieldsR rs rt rd _).trans (decodeR_slt rs rt rd),
    completes_writing_only_gpr (exec_slt rs rt rd s)⟩

/-- Settles O4: the key selects `sltu`, whose whole effect is the write of the unsigned comparison's word. -/
theorem sltuWritesUnsignedComparison : Obligations.SltuWritesUnsignedComparison := by
  unfold Obligations.SltuWritesUnsignedComparison
  intro rs rt rd s
  exact ⟨(decode_fieldsR rs rt rd _).trans (decodeR_sltu rs rt rd),
    completes_writing_only_gpr (exec_sltu rs rt rd s)⟩

end Machine
end Sys2Proof
end

section
/-! The multiply and divide chapter (41_muldiv.md R120 to R123, R126, R127): the frame that every write of HI and LO
shares, the exactness of the 64-bit product, and the branches of the two divisions. -/

namespace Sys2Proof
namespace Machine

/-! ## Decoding -/

theorem decodeR_mult (s t d : Reg) : decodeR 0x018#11 s t d = .ok (.mult s t) := rfl
theorem decodeR_multu (s t d : Reg) : decodeR 0x019#11 s t d = .ok (.multu s t) := rfl
theorem decodeR_div (s t d : Reg) : decodeR 0x01A#11 s t d = .ok (.div s t) := rfl
theorem decodeR_divu (s t d : Reg) : decodeR 0x01B#11 s t d = .ok (.divu s t) := rfl
theorem decodeR_mfhi (s t d : Reg) : decodeR 0x010#11 s t d = .ok (.mfhi d) := rfl
theorem decodeR_mflo (s t d : Reg) : decodeR 0x012#11 s t d = .ok (.mflo d) := rfl

/-! ## Frames -/

/-- A write of HI and LO keeps everything else (R125). -/
theorem setHiLo_frame (s : State) (h l : Word) :
    GprsKept s (s.setHiLo h l) ∧ (s.setHiLo h l).pc = s.pc ∧ MemoryKept s (s.setHiLo h l) ∧
      RunStateKept s (s.setHiLo h l) :=
  ⟨setHiLo_x s h l, setHiLo_pc s h l, memoryKept_of_eq (setHiLo_mem s h l) (setHiLo_out s h l),
    ⟨setHiLo_cfg s h l, setHiLo_status s h l, setHiLo_steps s h l, setHiLo_marks s h l⟩⟩

/-- So does a write of the product pair, which is a write of HI and LO. -/
theorem setProduct_frame (s : State) (p : Int) :
    GprsKept s (s.setProduct p) ∧ (s.setProduct p).pc = s.pc ∧ MemoryKept s (s.setProduct p) ∧
      RunStateKept s (s.setProduct p) :=
  setHiLo_frame s _ _

/-! ## Meanings of the instructions that cannot fault -/

section
variable (rs rt rd : Reg) (s : State)

theorem exec_mult : exec (.mult rs rt) s = .next (s.setProduct ((s.x rs).toInt * (s.x rt).toInt)) := rfl

theorem exec_multu :
    exec (.multu rs rt) s = .next (s.setProduct ((s.x rs).toNat * (s.x rt).toNat)) := rfl

theorem exec_mfhi : exec (.mfhi rd) s = .next (s.setX rd s.hi) := rfl

theorem exec_mflo : exec (.mflo rd) s = .next (s.setX rd s.lo) := rfl

end

/-! ## The product pair -/

/-- The signed pair is exact: a product of two signed words lies between -2^62 and 2^62. -/
theorem setProduct_toInt (s : State) (a b : Word) :
    ((s.setProduct (a.toInt * b.toInt)).hi ++ (s.setProduct (a.toInt * b.toInt)).lo).toInt =
      a.toInt * b.toInt := by
  rw [setProduct_pattern]
  have hlo := BitVec.le_toInt_mul_toInt (x := a) (y := b)
  have hhi := BitVec.toInt_mul_toInt_le (x := a) (y := b)
  exact BitVec.toInt_ofInt_eq_self (by decide) (by omega) (by omega)

/-- The unsigned pair is exact: a product of two unsigned words is below 2^64. -/
theorem setProduct_toNat (s : State) (a b : Word) :
    ((s.setProduct (a.toNat * b.toNat)).hi ++ (s.setProduct (a.toNat * b.toNat)).lo).toNat =
      a.toNat * b.toNat := by
  rw [setProduct_pattern, ← Int.natCast_mul, BitVec.ofInt_natCast, BitVec.toNat_ofNat]
  exact Nat.mod_eq_of_lt BitVec.toNat_mul_toNat_lt

/-! ## The branches of the divisions -/

/-- The record of a fault holds the fetch address (R207). -/
theorem site_f (s : State) : s.site.f = s.pc - 4#32 := prevWord_eq s.pc

/-- A natural number that fits in a word is the unsigned value of the word it wraps to. -/
theorem wrap32_natCast_toNat {n : Nat} (h : n < 2 ^ 32) : (wrap32 n).toNat = n := by
  rw [wrap32, BitVec.ofInt_natCast, BitVec.toNat_ofNat, Nat.mod_eq_of_lt h]

section
variable {rs rt : Reg} {s : State}

theorem exec_div_of_zero (h : s.x rt = 0) : exec (.div rs rt) s = .fault (.divideByZero s.site) :=
  if_pos (toInt_eq_zero_iff.2 h)

theorem exec_div_of_overflow (ha : s.x rs = 0x80000000#32) (hb : s.x rt = 0xFFFFFFFF#32)
    (hf : s.cfg.divOverflow = .fault) : exec (.div rs rt) s = .fault (.divideOverflow s.site) := by
  have h0 : (s.x rt).toInt ≠ 0 := by rw [hb]; decide
  exact (if_neg h0).trans (if_pos ⟨divOverflows_iff.2 ⟨ha, hb⟩, hf⟩)

theorem exec_div_completes (h0 : s.x rt ≠ 0)
    (hov : ¬ (s.x rs = 0x80000000#32 ∧ s.x rt = 0xFFFFFFFF#32 ∧ s.cfg.divOverflow = .fault)) :
    exec (.div rs rt) s = .next (s.setHiLo (wrap32 (Int.tmod (s.x rs).toInt (s.x rt).toInt))
      (wrap32 (Int.tdiv (s.x rs).toInt (s.x rt).toInt))) := by
  obtain ⟨hz, -⟩ | ⟨-, hd, hf, -⟩ | ⟨-, -, e⟩ := execDiv_cases rs rt s
  · exact absurd (toInt_eq_zero_iff.1 hz) h0
  · obtain ⟨ha, hb⟩ := divOverflows_iff.1 hd
    exact absurd ⟨ha, hb, hf⟩ hov
  · exact e

theorem exec_divu_of_zero (h : s.x rt = 0) : exec (.divu rs rt) s = .fault (.divideByZero s.site) :=
  if_pos (congrArg BitVec.toNat h)

theorem exec_divu_completes (h0 : s.x rt ≠ 0) :
    exec (.divu rs rt) s = .next (s.setHiLo (wrap32 ((s.x rs).toNat % (s.x rt).toNat : Nat))
      (wrap32 ((s.x rs).toNat / (s.x rt).toNat : Nat))) :=
  if_neg (mt BitVec.eq_of_toNat_eq h0)

end

/-- The one quotient that needs wrapping: -2^31 by -1 gives the pattern of -2^31 back, with remainder 0 (R122). -/
theorem wrapped_overflow_division :
    wrap32 (Int.tdiv (0x80000000#32).toInt (0xFFFFFFFF#32).toInt) = 0x80000000#32 ∧
    wrap32 (Int.tmod (0x80000000#32).toInt (0xFFFFFFFF#32).toInt) = 0 := by decide

/-! ## The statements -/

/-- Settles O8: each of the three guards selects its branch of `div`; the remainder is `s - t * (s / t)`, and the
overflowing pair is computed. -/
theorem divWritesQuotientAndRemainder : Obligations.DivWritesQuotientAndRemainder := by
  unfold Obligations.DivWritesQuotientAndRemainder
  intro rs rt d s
  refine ⟨(decode_fieldsR rs rt d _).trans (decodeR_div rs rt d),
    fun h0 => ⟨s.site, exec_div_of_zero h0, site_f s⟩,
    fun ha hb hf => ⟨s.site, exec_div_of_overflow ha hb hf, site_f s⟩,
    fun h0 hov => ⟨_, exec_div_completes h0 hov, rfl, congrArg wrap32 (Int.tmod_def _ _),
      fun ha hb => ?_, setHiLo_frame s _ _⟩⟩
  rw [ha, hb]
  exact wrapped_overflow_division

/-- Settles O9: each of the two guards selects its branch of `divu`; quotient and remainder are no larger than the
dividend, so both fit in a word. -/
theorem divuWritesQuotientAndRemainder : Obligations.DivuWritesQuotientAndRemainder := by
  unfold Obligations.DivuWritesQuotientAndRemainder
  intro rs rt d s
  have hquot : (s.x rs).toNat / (s.x rt).toNat < 2 ^ 32 := (Nat.div_le_self _ _).trans_lt (s.x rs).isLt
  have hrem : (s.x rs).toNat % (s.x rt).toNat < 2 ^ 32 := (Nat.mod_le _ _).trans_lt (s.x rs).isLt
  exact ⟨(decode_fieldsR rs rt d _).trans (decodeR_divu rs rt d),
    fun h0 => ⟨s.site, exec_divu_of_zero h0, site_f s⟩,
    fun h0 => ⟨_, exec_divu_completes h0, wrap32_natCast_toNat hquot, wrap32_natCast_toNat hrem,
      setHiLo_frame s _ _⟩⟩

/-- Settles O6: `mult` writes the product pair, and the signed product fits in it. -/
theorem multWritesSignedProduct : Obligations.MultWritesSignedProduct := by
  unfold Obligations.MultWritesSignedProduct
  intro rs rt d s
  exact ⟨(decode_fieldsR rs rt d _).trans (decodeR_mult rs rt d),
    _, exec_mult rs rt s, setProduct_toInt s _ _, setProduct_frame s _⟩

/-- Settles O7: `multu` writes the product pair, and the unsigned product fits in it. -/
theorem multuWritesUnsignedProduct : Obligations.MultuWritesUnsignedProduct := by
  unfold Obligations.MultuWritesUnsignedProduct
  intro rs rt d s
  exact ⟨(decode_fieldsR rs rt d _).trans (decodeR_multu rs rt d),
    _, exec_multu rs rt s, setProduct_toNat s _ _, setProduct_frame s _⟩

/-- Settles O11: the key selects `mfhi`, whose whole effect is the write of HI to GPR d. -/
theorem mfhiCopiesHi : Obligations.MfhiCopiesHi := by
  unfold Obligations.MfhiCopiesHi
  intro rs rt rd s
  exact ⟨(decode_fieldsR rs rt rd _).trans (decodeR_mfhi rs rt rd), completes_writing_only_gpr (exec_mfhi rd s)⟩

/-- Settles O12: the key selects `mflo`, whose whole effect is the write of LO to GPR d. -/
theorem mfloCopiesLo : Obligations.MfloCopiesLo := by
  unfold Obligations.MfloCopiesLo
  intro rs rt rd s
  exact ⟨(decode_fieldsR rs rt rd _).trans (decodeR_mflo rs rt rd), completes_writing_only_gpr (exec_mflo rd s)⟩

end Machine
end Sys2Proof
end

section
/-! The literal, load and store chapter (42_literal_load_store.md R150 to R153): what the outcome of the word access
makes of each instruction, and the frame of a store. -/

namespace Sys2Proof
namespace Machine

/-! ## Decoding -/

theorem decodeR_lis (s t d : Reg) : decodeR 0x014#11 s t d = .ok (.lis d) := rfl
theorem decodeI_lw (s t : Reg) (imm : Int) : decodeI 0x23#6 s t imm = .ok (.lw s t imm) := rfl
theorem decodeI_sw (s t : Reg) (imm : Int) : decodeI 0x2B#6 s t imm = .ok (.sw s t imm) := rfl

/-! ## Meanings, by the outcome of the word access -/

section
variable {rs rt rd : Reg} {imm : Int} {s s' : State} {v : Word}

theorem exec_lis_of_read (h : s.memRead s.pc = some v) :
    exec (.lis rd) s = .next ((s.setX rd v).setPc (s.pc + 4#32)) := by
  rw [← nextWord_eq]
  simp only [exec, execLis, h]

theorem exec_lis_of_no_read (h : s.memRead s.pc = none) :
    exec (.lis rd) s = .fault (.outOfBoundsMemoryAccess s.site s.pc) := by
  simp only [exec, execLis, h, raise]

theorem exec_lw_of_read (h : s.memRead (effectiveAddress (s.x rs) imm) = some v) :
    exec (.lw rs rt imm) s = .next (s.setX rt v) := by
  simp only [exec, execLw, h]

theorem exec_lw_of_no_read (h : s.memRead (effectiveAddress (s.x rs) imm) = none) :
    exec (.lw rs rt imm) s =
      .fault (.outOfBoundsMemoryAccess s.site (effectiveAddress (s.x rs) imm)) := by
  simp only [exec, execLw, h, raise]

theorem exec_sw_of_write (h : s.memWrite (effectiveAddress (s.x rs) imm) (s.x rt) = some s') :
    exec (.sw rs rt imm) s = .next s' := by
  simp only [exec, execSw, h]

theorem exec_sw_of_no_write (h : s.memWrite (effectiveAddress (s.x rs) imm) (s.x rt) = none) :
    exec (.sw rs rt imm) s =
      .fault (.outOfBoundsMemoryAccess s.site (effectiveAddress (s.x rs) imm)) := by
  simp only [exec, execSw, h, raise]

/-- A store or an emitted word keeps every register and the run loop's state. -/
theorem memWrite_keeps_registers {a : Word} (h : s.memWrite a v = some s') :
    GprsKept s s' ∧ s'.pc = s.pc ∧ HiLoKept s s' ∧ RunStateKept s s' := by
  obtain ⟨hgpr, hpc, hhi, hlo, hrun⟩ := memWrite_frame h
  exact ⟨gprsKept_of_gpr_eq hgpr, hpc, ⟨hhi, hlo⟩, hrun⟩

end

/-! ## The statements -/

/-- Settles O15: the bounds of the literal at npc decide between the fault and the load, whose whole effect is the
write of GPR d and the advance of PC. -/
theorem lisLoadsLiteralAndSkipsIt : Obligations.LisLoadsLiteralAndSkipsIt := by
  unfold Obligations.LisLoadsLiteralAndSkipsIt
  intro rs rt rd s
  refine ⟨(decode_fieldsR rs rt rd _).trans (decodeR_lis rs rt rd), fun hin => ?load, fun hout => ?fault⟩
  case load =>
    exact ⟨_, exec_lis_of_read (memRead_of_inBounds hin), onlyGprWritten_setX_setPc s rd _ _, setPc_pc _ _,
      ⟨rfl, rfl⟩, memoryKept_of_eq rfl rfl, runStateKept_refl s⟩
  case fault =>
    exact ⟨s.site, exec_lis_of_no_read (memRead_eq_none.2 hout), site_f s⟩

/-- Settles O16: the bounds of the word at the effective address decide between the fault and the load, whose whole
effect is the write of GPR t. -/
theorem lwLoadsWord : Obligations.LwLoadsWord := by
  unfold Obligations.LwLoadsWord
  intro rs rt v s ea
  refine ⟨(decode_fieldsI (by decide) rs rt v).trans (decodeI_lw rs rt _), fun hin => ?load, fun hout => ?fault⟩
  case load =>
    exact completes_writing_only_gpr (exec_lw_of_read (memRead_of_inBounds hin))
  case fault =>
    exact ⟨s.site, exec_lw_of_no_read (memRead_eq_none.2 hout), site_f s⟩

/-- Settles O17: `sw` is one `MemWrite` at the effective address, so each of its three outcomes is that of
`memWriteStoresOrEmits`. -/
theorem swStoresOrEmitsWord : Obligations.SwStoresOrEmitsWord := by
  unfold Obligations.SwStoresOrEmitsWord
  intro rs rt v s ea
  obtain ⟨emits, faults, stores⟩ := memWriteStoresOrEmits s ea (s.x rt)
  refine ⟨(decode_fieldsI (by decide) rs rt v).trans (decodeI_sw rs rt _), fun hport => ?port,
    fun hport hin => ?store, fun hport hout => ?fault⟩
  case port =>
    have hw := emits hport
    exact ⟨_, exec_sw_of_write hw, rfl, fun _ => rfl, memWrite_keeps_registers hw⟩
  case store =>
    obtain ⟨m, hw, byte0, byte1, byte2, byte3, others⟩ := stores hport hin
    exact ⟨_, exec_sw_of_write hw, byte0, byte1, byte2, byte3, others, rfl, memWrite_keeps_registers hw⟩
  case fault =>
    exact ⟨s.site, exec_sw_of_no_write (faults hport hout), site_f s⟩

end Machine
end Sys2Proof
end

section
/-! The control transfer chapter (43_control.md R174 to R179): every instruction of it as one write of PC, after the
link for `jalr`, and the frame of such a write. -/

namespace Sys2Proof
namespace Machine

/-! ## Decoding -/

theorem decodeR_jr (s t d : Reg) : decodeR 0x008#11 s t d = .ok (.jr s) := rfl
theorem decodeR_jalr (s t d : Reg) : decodeR 0x009#11 s t d = .ok (.jalr s) := rfl
theorem decodeI_beq (s t : Reg) (imm : Int) : decodeI 0x04#6 s t imm = .ok (.beq s t imm) := rfl
theorem decodeI_bne (s t : Reg) (imm : Int) : decodeI 0x05#6 s t imm = .ok (.bne s t imm) := rfl

/-! ## Meanings -/

theorem sameWord_iff {a b : Word} : sameWord a b = true ↔ a = b := decide_eq_true_iff

section
variable (rs rt : Reg) (imm : Int) (s : State) (v : Word)

/-- A write of PC keeps everything else. -/
theorem setPc_frame :
    GprsKept s (s.setPc v) ∧ HiLoKept s (s.setPc v) ∧ MemoryKept s (s.setPc v) ∧ RunStateKept s (s.setPc v) :=
  ⟨setPc_x s v, ⟨setPc_hi s v, setPc_lo s v⟩, memoryKept_of_eq (setPc_mem s v) (setPc_out s v),
    ⟨setPc_cfg s v, setPc_status s v, setPc_steps s v, setPc_marks s v⟩⟩

/-- Going on at npc is a write of PC that changes nothing. -/
theorem setPc_pc_self : s.setPc s.pc = s := rfl

theorem exec_jr : exec (.jr rs) s = .next (s.setPc (s.x rs)) := rfl

/-- The link is seen by the jump only when the target is read from GPR 31 after it was written (R176). -/
theorem exec_jalr :
    exec (.jalr rs) s = .next ((s.setX 31 s.pc).setPc
      (if rs = 31 ∧ s.cfg.jalrOrder = .linkFirst then s.pc else s.x rs)) := by
  change execJalr rs s = _
  cases hord : s.cfg.jalrOrder with
  | readFirst => simp [execJalr, hord]
  | linkFirst => simp [execJalr, hord, setX_x, linkReg]

theorem exec_beq :
    exec (.beq rs rt imm) s =
      .next (s.setPc (if s.x rs = s.x rt then wrap32 ((s.pc.toNat : Int) + 4 * imm) else s.pc)) := by
  change execBeq rs rt imm s = _
  by_cases heq : s.x rs = s.x rt
  · rw [execBeq, if_pos (sameWord_iff.2 heq), if_pos heq, branchTarget]
  · rw [execBeq, if_neg (mt sameWord_iff.1 heq), if_neg heq, setPc_pc_self]

theorem exec_bne :
    exec (.bne rs rt imm) s =
      .next (s.setPc (if s.x rs ≠ s.x rt then wrap32 ((s.pc.toNat : Int) + 4 * imm) else s.pc)) := by
  change execBne rs rt imm s = _
  by_cases heq : s.x rs = s.x rt
  · rw [execBne, if_pos (sameWord_iff.2 heq), if_neg (not_not.2 heq), setPc_pc_self]
  · rw [execBne, if_neg (mt sameWord_iff.1 heq), if_pos heq, branchTarget]

end

/-! ## The statements -/

/-- Settles O25: the key selects `jr`, whose whole effect is the write of x[s] to PC. -/
theorem jrJumpsToRegister : Obligations.JrJumpsToRegister := by
  unfold Obligations.JrJumpsToRegister
  intro rs t d s
  exact ⟨(decode_fieldsR rs t d _).trans (decodeR_jr rs t d), _, exec_jr rs s, setPc_pc _ _, setPc_frame s _⟩

/-- Settles O26: the key selects `jalr`, whose whole effect is the link and one write of PC; JALR_ORDER enters its
target for s = 31 only. -/
theorem jalrLinksAndJumps : Obligations.JalrLinksAndJumps := by
  unfold Obligations.JalrLinksAndJumps
  intro rs t d s
  refine ⟨(decode_fieldsR rs t d _).trans (decodeR_jalr rs t d), _, exec_jalr rs s,
    onlyGprWritten_setX_setPc s 31 _ _, fun hrs => ?other, fun hrs hord => ?readFirst,
    fun hrs hord => ?linkFirst, ⟨rfl, rfl⟩, memoryKept_of_eq rfl rfl, runStateKept_refl s⟩
  case other => rw [setPc_pc, if_neg fun h => hrs h.1]
  case readFirst => rw [setPc_pc, if_neg (by simp [hord]), hrs]
  case linkFirst => rw [setPc_pc, if_pos ⟨hrs, hord⟩]

/-- Settles O27: the opcode selects `beq`, whose whole effect is a write of PC, to the branch target or to npc. -/
theorem beqBranchesWhenEqual : Obligations.BeqBranchesWhenEqual := by
  unfold Obligations.BeqBranchesWhenEqual
  intro rs rt v s
  exact ⟨(decode_fieldsI (by decide) rs rt v).trans (decodeI_beq rs rt _), _, exec_beq rs rt _ s,
    fun heq => if_pos heq, fun hne => if_neg hne, setPc_frame s _⟩

/-- Settles O28: the opcode selects `bne`, whose whole effect is a write of PC, to the branch target or to npc. -/
theorem bneBranchesWhenDifferent : Obligations.BneBranchesWhenDifferent := by
  unfold Obligations.BneBranchesWhenDifferent
  intro rs rt v s
  exact ⟨(decode_fieldsI (by decide) rs rt v).trans (decodeI_bne rs rt _), _, exec_bne rs rt _ s,
    fun hne => if_pos hne, fun heq => if_neg (not_not.2 heq), setPc_frame s _⟩

end Machine
end Sys2Proof
end

section
/-! The exceptions chapter (60_exceptions.md R207, R221 to R223): the record of every fault, the bookkeeping after a
completed step, and what the host reads of an ended run. -/

namespace Sys2Proof
namespace Machine

/-! ## What an engine step keeps -/

/-- No effect of an instruction reaches the parameters or the run loop's state (R20). -/
theorem Effect.runStateKept {s s' : State} (h : Effect s s') : RunStateKept s s' := by
  cases h <;> exact runStateKept_refl s

theorem exec_runStateKept {i : Instr} {s s' : State} {pc : Word} (h : exec i (s.setPc pc) = .next s') :
    RunStateKept s s' :=
  (exec_effect h).runStateKept

theorem engineStep_runStateKept {s t : State} (h : engineStep s = .next t) : RunStateKept s t := by
  obtain ⟨w, i, -, -, hx⟩ := engineStep_next h
  exact exec_runStateKept hx

/-! ## The record of a fault -/

/-- While an instruction executes on the advanced PC, a record's site is that of the step's own fetch. -/
theorem site_setPc_nextWord (s : State) :
    (s.setPc (nextWord s.pc)).site = ⟨s.pc, s.memRead s.pc, s.steps⟩ := by
  rw [State.site, setPc_pc, prevWord_nextWord, memRead_congr (setPc_cfg s _) (setPc_mem s _), setPc_steps]

/-- The fetched word decodes to one instruction only. -/
theorem decoded_eq {s : State} {w w' : Word} {i i' : Instr} (hm : s.memRead s.pc = some w) (hd : decode w = .ok i)
    (hm' : s.memRead s.pc = some w') (hd' : decode w' = .ok i') : i' = i := by
  obtain rfl := Option.some.inj (hm.symm.trans hm')
  exact (Except.ok.inj (hd.symm.trans hd')).symm

/-- Settles O44: a step faults at the fetch, at decode, in the instruction or at the collision check. The first, second
and last write their record out; an instruction's record has the site of the step's fetch, and its address is that of
the word access the instruction makes. -/
theorem faultRecordContents : Obligations.FaultRecordContents := by
  unfold Obligations.FaultRecordContents
  intro s r hstep
  obtain ⟨-, ⟨hm, rfl⟩ | ⟨w, hm, ⟨e, hd, rfl⟩ | ⟨i, hd, hx | ⟨t, hx, -, rfl⟩⟩⟩⟩ := step_fault_cases hstep
  · -- the fetch
    refine ⟨rfl, hm.symm, rfl, rfl, memRead_eq_none.1 hm, fun _ => rfl, fun w i hw => ?_⟩
    exact absurd (hm.symm.trans hw) (by simp)
  · -- the decoder
    exact ⟨rfl, hm.symm, rfl, rfl⟩
  · -- the instruction
    have hfetched (addr : Word) (hn : s.memRead s.pc = none) : addr = s.pc := absurd (hm.symm.trans hn) (by simp)
    have hf := exec_fault_cases hx
    rw [site_setPc_nextWord] at hf
    obtain ⟨rd, rfl, hout, rfl⟩ | ⟨rs, rt, imm, rfl, hout, rfl⟩ | ⟨rs, rt, imm, rfl, hout, rfl⟩ |
      ⟨rs, rt, -, -, rfl⟩ | ⟨rs, rt, -, -, -, rfl⟩ := hf
    · refine ⟨rfl, rfl, rfl, rfl, memRead_eq_none.1 hout, hfetched _, fun w' i' hw' hd' => ?_⟩
      obtain rfl := decoded_eq hm hd hw' hd'
      exact nextWord_eq s.pc
    · refine ⟨rfl, rfl, rfl, rfl, memRead_eq_none.1 hout, hfetched _, fun w' i' hw' hd' => ?_⟩
      obtain rfl := decoded_eq hm hd hw' hd'
      rfl
    · refine ⟨rfl, rfl, rfl, rfl, (memWrite_eq_none.1 hout).2, hfetched _, fun w' i' hw' hd' => ?_⟩
      obtain rfl := decoded_eq hm hd hw' hd'
      rfl
    · exact ⟨rfl, rfl, rfl, rfl⟩
    · exact ⟨rfl, rfl, rfl, rfl⟩
  · -- the collision check
    obtain ⟨-, -, hsteps, -⟩ := exec_runStateKept hx
    exact ⟨rfl, hm.symm, rfl, congrArg (· + 1) hsteps, t, (engineStep_of_decode hm hd).trans hx, rfl, rfl⟩

/-! ## The bookkeeping after a completed step -/

theorem minWord_toNat (a b : Word) : (minWord a b).toNat = min a.toNat b.toNat := by
  rw [minWord]
  split <;> omega

theorem maxWord_toNat (a b : Word) : (maxWord a b).toNat = max a.toNat b.toNat := by
  rw [maxWord]
  split <;> omega

/-- A completed engine step is followed by the bookkeeping alone. -/
theorem step_of_completed {s t : State} (hf : s.fetches) (h : engineStep s = .next t) :
    step s = afterStep s.pc (s.memRead s.pc) t := by
  rw [step_of_fetches hf, h]

/-- Settles O45: the collision check decides between the fault and the counted state, and an engine step leaves STEPS
and MARKS as they stood before it. -/
theorem completedStepIsCountedSampledAndChecked : Obligations.CompletedStepIsCountedSampledAndChecked := by
  unfold Obligations.CompletedStepIsCountedSampledAndChecked
  intro s t hr hp h
  obtain ⟨-, -, hsteps, hmarks⟩ := engineStep_runStateKept h
  rw [step_of_completed ⟨hr, hp⟩ h, ← hsteps, ← hmarks]
  refine ⟨fun hlt => afterStep_of_collides (collides_iff.2 hlt), fun hle => ?apart⟩
  case apart =>
    have hc : t.collides = false := Bool.eq_false_iff.2 fun hc => hle.not_gt (collides_iff.1 hc)
    refine ⟨sampleMarks t.marks (t.x 30) (t.x 28), afterStep_of_apart hc, fun hm => ?first, fun k hm => ?later⟩
    case first => rw [hm, sampleMarks]
    case later =>
      rw [hm, sampleMarks]
      exact ⟨minWord_toNat _ _, maxWord_toNat _ _, minWord_toNat _ _, maxWord_toNat _ _⟩

/-! ## The end of a run and its report -/

section
variable {s : State}

theorem report_of_running (h : s.status = .running) : s.report = none := by
  rw [State.report, h]

theorem report_of_faulted {r : Fault} (h : s.status = .faulted r) : s.report = some (.faulted r) := by
  rw [State.report, h]

theorem report_with_halted (s : State) :
    { s with status := .halted }.report =
      some (.halted s.steps s.marks (Vector.ofFn s.x) s.pc s.hi s.lo s.out) := rfl

/-- A run that has halted met PC = SENTINEL in some earlier iteration, and only its STATUS has changed since (R220,
R225). -/
theorem runLoop_halted {k : Nat} (hr : s.status = .running) (hk : (runLoop k s).status = .halted) :
    ∃ n < k, (runLoop n s).status = .running ∧ (runLoop n s).pc = s.cfg.sentinel ∧
      runLoop k s = { runLoop n s with status := .halted } := by
  induction k generalizing s with
  | zero => exact absurd (hr.symm.trans hk) (by simp)
  | succ k ih =>
    cases hs : step s with
    | refused r => exact absurd hs (step_not_refused s r)
    | fault r =>
      rw [runLoop_succ_fault hs, fail_status] at hk
      exact absurd hk (by simp)
    | next s' =>
      rw [runLoop_succ_next hs] at hk ⊢
      obtain ⟨hne, -⟩ | ⟨-, hp, rfl⟩ | ⟨-, w, i, t, -, -, hx, -, rfl⟩ := step_cases hs
      · exact absurd hr hne
      · exact ⟨0, k.succ_pos, hr, hp, runLoop_of_ended (by simp) k⟩
      · obtain ⟨hcfg, hstatus, -, -⟩ := exec_runStateKept hx
        obtain ⟨n, hn, hrun, hpc, hend⟩ := ih (s := t.counted) (hstatus.trans hr) hk
        refine ⟨n + 1, Nat.succ_lt_succ hn, ?_⟩
        rw [runLoop_succ_next hs]
        exact ⟨hrun, hpc.trans (congrArg Config.sentinel hcfg), hend⟩

end

/-- Settles O57: a halted run is the state that met SENTINEL but for STATUS, so the report, which does not show STATUS,
is of that state. -/
theorem reportIsOfTheLastStep : Obligations.ReportIsOfTheLastStep := by
  unfold Obligations.ReportIsOfTheLastStep
  intro s k hr
  refine ⟨report_of_running, fun hk => ?halted, fun r => report_of_faulted⟩
  case halted =>
    obtain ⟨n, hn, hrun, hpc, hend⟩ := runLoop_halted hr hk
    refine ⟨n, Vector.ofFn (runLoop n s).x, hn, hrun, hpc, hend, fun i => by simp, ?_⟩
    rw [hend, report_with_halted]

end Machine
end Sys2Proof
end

section
/-! The encoding chapter (30_encoding.md R71 to R80): the round trip of the encoder, and the table of encodings as the
decoder's own rows. -/

namespace Sys2Proof
namespace Machine

/-! ## The round trip -/

/-- Every operand the decoder cuts out of an encoded word is the one the encoder put there. -/
theorem decode_encode {i : Instr} (h : i.wf = true) : decode (encode i) = .ok i := by
  cases i with
  | add rs rt rd => exact decode_wordR rs rt rd Enc.add
  | sub rs rt rd => exact decode_wordR rs rt rd Enc.sub
  | slt rs rt rd => exact decode_wordR rs rt rd Enc.slt
  | sltu rs rt rd => exact decode_wordR rs rt rd Enc.sltu
  | mult rs rt => exact decode_wordR rs rt 0 Enc.mult
  | multu rs rt => exact decode_wordR rs rt 0 Enc.multu
  | div rs rt => exact decode_wordR rs rt 0 Enc.div
  | divu rs rt => exact decode_wordR rs rt 0 Enc.divu
  | mfhi rd => exact decode_wordR 0 0 rd Enc.mfhi
  | mflo rd => exact decode_wordR 0 0 rd Enc.mflo
  | lis rd => exact decode_wordR 0 0 rd Enc.lis
  | jr rs => exact decode_wordR rs 0 0 Enc.jr
  | jalr rs => exact decode_wordR rs 0 0 Enc.jalr
  | lw rs rt imm => exact decode_wordI (op := Enc.lw) (by decide) rs rt h
  | sw rs rt imm => exact decode_wordI (op := Enc.sw) (by decide) rs rt h
  | beq rs rt imm => exact decode_wordI (op := Enc.beq) (by decide) rs rt h
  | bne rs rt imm => exact decode_wordI (op := Enc.bne) (by decide) rs rt h

/-- Settles O31: the decoder reads back the key and every field that the encoder wrote. -/
theorem decodeEncodeRoundTrip : Obligations.DecodeEncodeRoundTrip := by
  unfold Obligations.DecodeEncodeRoundTrip
  exact fun _ => decode_encode

/-! ## The dispatch tables -/

/-- A key in no row of the R format's table is no instruction (R76). -/
theorem decodeR_of_not_mem {k : BitVec 11} (s t d : Reg)
    (h : k ∉ [0x008#11, 0x009#11, 0x010#11, 0x012#11, 0x014#11, 0x018#11, 0x019#11, 0x01A#11, 0x01B#11, 0x020#11,
      0x022#11, 0x02A#11, 0x02B#11]) :
    decodeR k s t d = .error (.unknownFunction k) := by
  simp only [List.mem_cons, List.not_mem_nil, or_false, not_or] at h
  simp [decodeR, Enc.jr, Enc.jalr, Enc.mfhi, Enc.mflo, Enc.lis, Enc.mult, Enc.multu, Enc.div, Enc.divu, Enc.add,
    Enc.sub, Enc.slt, Enc.sltu, h]

/-- An opcode in no row of the I format's table is no instruction (R77). -/
theorem decodeI_of_not_mem {op : BitVec 6} (s t : Reg) (imm : Int) (h : op ∉ [0x04#6, 0x05#6, 0x23#6, 0x2B#6]) :
    decodeI op s t imm = .error (.unknownOpcode op) := by
  simp only [List.mem_cons, List.not_mem_nil, or_false, not_or] at h
  simp [decodeI, Enc.beq, Enc.bne, Enc.lw, Enc.sw, h]

/-- Settles O32: the opcode selects the table, and the function key or the opcode selects the row of it. -/
theorem decodeFollowsDispatchTables : Obligations.DecodeFollowsDispatchTables := by
  unfold Obligations.DecodeFollowsDispatchTables
  intro w s t d func op imm
  refine ⟨fun hop => ?formatR, fun hop => ?formatI⟩
  case formatR =>
    have hdec : decode w = decodeR func s t d := decode_of_opcode_zero hop
    have row {k : BitVec 11} (hk : func = k) : decode w = decodeR k s t d := hk ▸ hdec
    exact ⟨row, row, row, row, row, row, row, row, row, row, row, row, row,
      fun hk => ⟨_, hdec.trans (decodeR_of_not_mem s t d hk)⟩⟩
  case formatI =>
    have hdec : decode w = decodeI op s t imm := decode_of_opcode_ne hop
    have row {k : BitVec 6} (hk : op = k) : decode w = decodeI k s t imm := hk ▸ hdec
    exact ⟨row, row, row, row, fun hk => ⟨_, hdec.trans (decodeI_of_not_mem s t imm hk)⟩⟩

/-! ## The rows of the table -/

/-- What decodes is well formed and lies in its instruction's row. -/
theorem decode_ok {w : Word} {i : Instr} (h : decode w = .ok i) : i.wf = true ∧ w &&& i.row.mask = i.row.value := by
  by_cases hop : opcodeOf w = 0#6
  · rw [decode_of_opcode_zero hop] at h
    obtain ⟨hmask, hvalue, hwf⟩ := decodeR_ok h
    rw [hmask, hvalue]
    exact ⟨hwf, (and_maskR_iff w _).2 ⟨hop, rfl⟩⟩
  · rw [decode_of_opcode_ne hop] at h
    obtain ⟨hmask, hvalue, hwf⟩ := decodeI_ok h
    rw [hmask, hvalue, hwf]
    exact ⟨immOf_inRange w, (and_maskI_iff w _).2 rfl⟩

/-- Settles O34: what decodes is well formed, so it survives the round trip; then both words decode to it and lie in
its row. -/
theorem decodedWordsAreWellFormedAndReencode : Obligations.DecodedWordsAreWellFormedAndReencode := by
  unfold Obligations.DecodedWordsAreWellFormedAndReencode
  intro w i h
  obtain ⟨hwf, hrow⟩ := decode_ok h
  have hback := decode_encode hwf
  exact ⟨hwf, hback, (decode_ok hback).2.trans hrow.symm⟩

/-- A word in a row of the R format dispatches by that row's key. -/
theorem decode_of_and_maskR {w : Word} {k : BitVec 11} (h : w &&& 0xFC0007FF#32 = k.setWidth 32) :
    decode w = decodeR k (fieldS w) (fieldT w) (fieldD w) := by
  obtain ⟨hop, hk⟩ := (and_maskR_iff w k).1 h
  rw [decode_of_opcode_zero hop, hk]

/-- A word in a row of the I format dispatches by that row's opcode. -/
theorem decode_of_and_maskI {w : Word} {op : BitVec 6} (h0 : op ≠ 0#6) (h : w &&& 0xFC000000#32 = op ++ 0#26) :
    decode w = decodeI op (fieldS w) (fieldT w) (immOf w) := by
  obtain rfl := (and_maskI_iff w op).1 h
  exact decode_of_opcode_ne h0

/-- A word in a row decodes to an instruction of that row. -/
theorem decode_of_and_mask {w : Word} {r : EncRow} (hr : r ∈ encTable) (h : w &&& r.mask = r.value) :
    ∃ i, decode w = .ok i ∧ i.row = r := by
  simp only [encTable, List.mem_cons, List.not_mem_nil, or_false] at hr
  obtain rfl | rfl | rfl | rfl | rfl | rfl | rfl | rfl | rfl | rfl | rfl | rfl | rfl | rfl | rfl | rfl | rfl := hr
  · exact ⟨_, decode_of_and_maskR (k := Enc.add) h, rfl⟩
  · exact ⟨_, decode_of_and_maskR (k := Enc.sub) h, rfl⟩
  · exact ⟨_, decode_of_and_maskR (k := Enc.mult) h, rfl⟩
  · exact ⟨_, decode_of_and_maskR (k := Enc.multu) h, rfl⟩
  · exact ⟨_, decode_of_and_maskR (k := Enc.div) h, rfl⟩
  · exact ⟨_, decode_of_and_maskR (k := Enc.divu) h, rfl⟩
  · exact ⟨_, decode_of_and_maskR (k := Enc.mfhi) h, rfl⟩
  · exact ⟨_, decode_of_and_maskR (k := Enc.mflo) h, rfl⟩
  · exact ⟨_, decode_of_and_maskR (k := Enc.lis) h, rfl⟩
  · exact ⟨_, decode_of_and_maskR (k := Enc.slt) h, rfl⟩
  · exact ⟨_, decode_of_and_maskR (k := Enc.sltu) h, rfl⟩
  · exact ⟨_, decode_of_and_maskR (k := Enc.jr) h, rfl⟩
  · exact ⟨_, decode_of_and_maskR (k := Enc.jalr) h, rfl⟩
  · exact ⟨_, decode_of_and_maskI (op := Enc.lw) (by decide) h, rfl⟩
  · exact ⟨_, decode_of_and_maskI (op := Enc.sw) (by decide) h, rfl⟩
  · exact ⟨_, decode_of_and_maskI (op := Enc.beq) (by decide) h, rfl⟩
  · exact ⟨_, decode_of_and_maskI (op := Enc.bne) (by decide) h, rfl⟩

/-- A word lies in a row exactly when it decodes to an instruction of that row. -/
theorem and_mask_eq_iff_decode {r : EncRow} (hr : r ∈ encTable) (w : Word) :
    w &&& r.mask = r.value ↔ ∃ i, decode w = .ok i ∧ i.row = r := by
  refine ⟨decode_of_and_mask hr, ?_⟩
  rintro ⟨i, hdec, rfl⟩
  exact (decode_ok hdec).2

/-- Settles O33: the rows are those of the decoder, and they are disjoint because a word decodes to one instruction. -/
theorem wordIsInstructionExactlyInItsRow : Obligations.WordIsInstructionExactlyInItsRow := by
  unfold Obligations.WordIsInstructionExactlyInItsRow
  refine ⟨rfl, fun w r hr r' hr' h h' => ?disjoint, fun w r hr => and_mask_eq_iff_decode hr w⟩
  case disjoint =>
    obtain ⟨i, hdec, rfl⟩ := decode_of_and_mask hr h
    obtain ⟨i', hdec', rfl⟩ := decode_of_and_mask hr' h'
    rw [Except.ok.inj (hdec.symm.trans hdec')]

/-- The words that are no instruction are those that lie in no row (R79). -/
theorem decode_error_iff {w : Word} :
    (∃ e, decode w = .error e) ↔ ∀ r ∈ encTable, w &&& r.mask ≠ r.value := by
  refine ⟨?_, fun hnone => ?_⟩
  · rintro ⟨e, he⟩ r hr hrow
    obtain ⟨i, hi, -⟩ := decode_of_and_mask hr hrow
    exact absurd (he.symm.trans hi) (by simp)
  · cases hdec : decode w with
    | error e => exact ⟨e, rfl⟩
    | ok i => exact absurd (decode_ok hdec).2 (hnone _ (row_mem_encTable i))

/-- Settles O35: the decoder evaluated on the nine words. -/
theorem writtenOutWordsDecode : Obligations.WrittenOutWordsDecode := by
  unfold Obligations.WrittenOutWordsDecode
  decide

end Machine
end Sys2Proof
end

section
/-! The machine's invariant: every step keeps it, and every launch builds a state that meets it; with them what a
launch refuses (60_exceptions.md R227). -/

namespace Sys2Proof
namespace Machine

/-! ## What an instruction's effect keeps of it -/

section
variable {s t : State}

theorem Effect.mem_wf (h : Effect s t) (hm : s.mem.wf) : t.mem.wf := by
  cases h with
  | store a v hin => exact Memory.wf_writeWord hm _ v
  | none | gpr | hiLo | pc | gprPc | emit => exact hm

theorem Effect.mem_within (h : Effect s t) (hm : s.mem.within s.cfg.memSize.val) :
    t.mem.within t.cfg.memSize.val := by
  cases h with
  | store a v hin => exact Memory.within_writeWord hm hin v
  | none | gpr | hiLo | pc | gprPc | emit => exact hm

theorem Effect.gpr_slot_zero (h : Effect s t) : t.gpr[0] = s.gpr[0] := by
  cases h with
  | gpr d v | gprPc d v => exact gprWrite_slot_zero d v s.gpr
  | none | hiLo | pc | emit | store => rfl

/-- Counting a step that has not collided takes the sample that the invariant asks for. -/
theorem counted_inv (hwf : t.mem.wf) (hwithin : t.mem.within t.cfg.memSize.val) (hzero : t.gpr[0] = 0)
    (hc : t.collides = false) : t.counted.Inv where
  memCanonical := hwf
  memWithin := hwithin
  gprZero := hzero
  marksSampled := by simp
  marksBound k hk := by
    obtain rfl := Option.some.inj hk
    exact sampleMarks_bound t.marks (t.x spReg) (t.x hpReg)
  heapBelowStack _ := Nat.le_of_not_lt fun hlt => Bool.false_ne_true (hc.symm.trans (collides_iff.2 hlt))

end

/-- Settles O49: a step of an ended run and the halt leave every part of the invariant as it stands. A completed step
keeps memory and the slot of GPR 0 in form by the shapes of `Effect`, and the bookkeeping establishes the rest anew. -/
theorem stepKeepsInvariant : Obligations.StepKeepsInvariant := by
  unfold Obligations.StepKeepsInvariant
  intro s s' hinv hstep
  obtain ⟨-, rfl⟩ | ⟨-, -, rfl⟩ | ⟨-, w, i, t, -, -, hx, hc, rfl⟩ := step_cases hstep
  · -- the run has ended
    exact hinv
  · -- the halt test
    exact ⟨hinv.memCanonical, hinv.memWithin, hinv.gprZero, hinv.marksSampled, hinv.marksBound, hinv.heapBelowStack⟩
  · -- a completed step
    have heff := exec_effect hx
    exact counted_inv (heff.mem_wf hinv.memCanonical) (heff.mem_within hinv.memWithin)
      (heff.gpr_slot_zero.trans hinv.gprZero) hc

/-! ## The launch -/

theorem launch_none (size : Nat) (params : Config) (seeds : List (Reg × Word)) :
    launch size params none seeds = .error .imageMissing := rfl

theorem launch_memorySizeOutOfRange {size : Nat} (params : Config) (image : List Byte) (seeds : List (Reg × Word))
    (h : ¬ size < maxMemSize + 1) : launch size params (some image) seeds = .error .memorySizeOutOfRange := by
  simp only [launch, dif_neg h]

theorem launch_imageTooLong {size : Nat} (params : Config) {image : List Byte} (seeds : List (Reg × Word))
    (hsize : size < maxMemSize + 1) (himage : ¬ image.length ≤ size) :
    launch size params (some image) seeds = .error .imageTooLong := by
  simp only [launch, dif_pos hsize, if_neg himage]

/-- Settles O53: each bad input fails its own check, and the checks before it pass. -/
theorem launchRefusesBadInputs : Obligations.LaunchRefusesBadInputs := by
  unfold Obligations.LaunchRefusesBadInputs
  intro size params seeds image
  exact ⟨launch_none size params seeds,
    fun hbig => launch_memorySizeOutOfRange params image seeds (Nat.not_lt.2 hbig),
    fun hsize hlong => launch_imageTooLong params seeds (Nat.lt_succ_of_le hsize) (Nat.not_le.2 hlong)⟩

/-- Everything a launch that answers a state was given, and the state it builds. -/
theorem launch_cases {size : Nat} {params : Config} {image : Option (List Byte)} {seeds : List (Reg × Word)}
    {s : State} (h : launch size params image seeds = .ok s) :
    ∃ (bytes : List Byte) (hsize : size < maxMemSize + 1), bytes.length ≤ size ∧
      s = ((State.blank { params with memSize := ⟨size, hsize⟩ } bytes).seeded seeds).setX linkReg
        params.sentinel := by
  cases image with
  | none => exact absurd h (by simp [launch_none])
  | some bytes =>
    by_cases hsize : size < maxMemSize + 1
    · by_cases himage : bytes.length ≤ size
      · rw [launch_eq_ok params seeds hsize himage] at h
        exact ⟨bytes, hsize, himage, (Except.ok.inj h).symm⟩
      · rw [launch_imageTooLong params seeds hsize himage] at h
        exact absurd h (by simp)
    · rw [launch_memorySizeOutOfRange params bytes seeds hsize] at h
      exact absurd h (by simp)

/-- No seed reaches the slot of GPR 0 (R21, R240). -/
theorem seeded_gpr_slot_zero (s : State) (seeds : List (Reg × Word)) : (s.seeded seeds).gpr[0] = s.gpr[0] := by
  induction seeds generalizing s with
  | nil => rfl
  | cons seed seeds ih => exact (ih (s.setX seed.1 seed.2)).trans (gprWrite_slot_zero seed.1 seed.2 s.gpr)

/-- A laid-out image ends within its length. -/
theorem Memory.within_ofBytes {image : List Byte} {size : Nat} (h : image.length ≤ size) :
    (Memory.ofBytes 0 image).within size := by
  intro c hc
  obtain ⟨-, hlt, -⟩ := Memory.mem_ofBytes hc
  omega

/-- Settles O56: the image's bytes are canonical and fit, nothing writes the slot of GPR 0, and no sample is taken. -/
theorem launchMeetsInvariant : Obligations.LaunchMeetsInvariant := by
  unfold Obligations.LaunchMeetsInvariant
  intro size params image seeds s h
  obtain ⟨bytes, hsize, hlen, rfl⟩ := launch_cases h
  exact {
    memCanonical := by simpa using Memory.wf_ofBytes 0 bytes
    memWithin := by simpa using Memory.within_ofBytes hlen
    gprZero := (gprWrite_slot_zero _ _ _).trans (seeded_gpr_slot_zero _ seeds)
    marksSampled := by simp
    marksBound := by simp
    heapBelowStack := by simp }

/-- Settles O52: the empty image has no bytes to lay out, and SENTINEL is the one register written. -/
theorem resetIsTheEmptyLaunch : Obligations.ResetIsTheEmptyLaunch := by
  unfold Obligations.ResetIsTheEmptyLaunch
  exact launch_eq_ok Config.atReset [] (by decide) (by decide)

/-- Settles O50: the reset state is a launch, and every launch meets the invariant. -/
theorem resetMeetsInvariant : Obligations.ResetMeetsInvariant := by
  unfold Obligations.ResetMeetsInvariant
  exact launchMeetsInvariant _ _ _ _ _ resetIsTheEmptyLaunch

end Machine
end Sys2Proof
end

section
/-! `Completes` says once, per instruction, what a completed instruction did, and `exec` answers exactly that. -/

namespace Sys2Proof
namespace Machine

/-- `i` completes in the state `s` and leaves the given state: one rule for each row of the opcode table. -/
inductive Completes (s : State) : Instr → State → Prop where
  | add (rs rt rd : Reg) : Completes s (.add rs rt rd) (s.setX rd (wrap32 ((s.x rs).toInt + (s.x rt).toInt)))
  | sub (rs rt rd : Reg) : Completes s (.sub rs rt rd) (s.setX rd (wrap32 ((s.x rs).toInt - (s.x rt).toInt)))
  | slt (rs rt rd : Reg) :
      Completes s (.slt rs rt rd) (s.setX rd (if (s.x rs).toInt < (s.x rt).toInt then 1 else 0))
  | sltu (rs rt rd : Reg) :
      Completes s (.sltu rs rt rd) (s.setX rd (if (s.x rs).toNat < (s.x rt).toNat then 1 else 0))
  | mult (rs rt : Reg) : Completes s (.mult rs rt) (s.setProduct ((s.x rs).toInt * (s.x rt).toInt))
  | multu (rs rt : Reg) : Completes s (.multu rs rt) (s.setProduct ((s.x rs).toNat * (s.x rt).toNat))
  | div (rs rt : Reg) (h0 : s.x rt ≠ 0)
      (hov : ¬ (s.x rs = 0x80000000#32 ∧ s.x rt = 0xFFFFFFFF#32 ∧ s.cfg.divOverflow = .fault)) :
      Completes s (.div rs rt) (s.setHiLo (wrap32 (Int.tmod (s.x rs).toInt (s.x rt).toInt))
        (wrap32 (Int.tdiv (s.x rs).toInt (s.x rt).toInt)))
  | divu (rs rt : Reg) (h0 : s.x rt ≠ 0) :
      Completes s (.divu rs rt) (s.setHiLo (wrap32 ((s.x rs).toNat % (s.x rt).toNat : Nat))
        (wrap32 ((s.x rs).toNat / (s.x rt).toNat : Nat)))
  | mfhi (rd : Reg) : Completes s (.mfhi rd) (s.setX rd s.hi)
  | mflo (rd : Reg) : Completes s (.mflo rd) (s.setX rd s.lo)
  | lis (rd : Reg) (v : Word) (hread : s.memRead s.pc = some v) :
      Completes s (.lis rd) ((s.setX rd v).setPc (s.pc + 4#32))
  | lw (rs rt : Reg) (imm : Int) (v : Word) (hread : s.memRead (effectiveAddress (s.x rs) imm) = some v) :
      Completes s (.lw rs rt imm) (s.setX rt v)
  | sw (rs rt : Reg) (imm : Int) (s' : State)
      (hwrite : s.memWrite (effectiveAddress (s.x rs) imm) (s.x rt) = some s') : Completes s (.sw rs rt imm) s'
  | jr (rs : Reg) : Completes s (.jr rs) (s.setPc (s.x rs))
  | jalr (rs : Reg) :
      Completes s (.jalr rs) ((s.setX 31 s.pc).setPc
        (if rs = 31 ∧ s.cfg.jalrOrder = .linkFirst then s.pc else s.x rs))
  | beq (rs rt : Reg) (imm : Int) :
      Completes s (.beq rs rt imm)
        (s.setPc (if s.x rs = s.x rt then wrap32 ((s.pc.toNat : Int) + 4 * imm) else s.pc))
  | bne (rs rt : Reg) (imm : Int) :
      Completes s (.bne rs rt imm)
        (s.setPc (if s.x rs ≠ s.x rt then wrap32 ((s.pc.toNat : Int) + 4 * imm) else s.pc))

section
variable {i : Instr} {s s' : State}

/-- What completes is what `exec` answers. -/
theorem Completes.exec (h : Completes s i s') : exec i s = .next s' := by
  cases h with
  | add rs rt rd => exact exec_add rs rt rd s
  | sub rs rt rd => exact exec_sub rs rt rd s
  | slt rs rt rd => exact exec_slt rs rt rd s
  | sltu rs rt rd => exact exec_sltu rs rt rd s
  | mult rs rt => exact exec_mult rs rt s
  | multu rs rt => exact exec_multu rs rt s
  | div rs rt h0 hov => exact exec_div_completes h0 hov
  | divu rs rt h0 => exact exec_divu_completes h0
  | mfhi rd => exact exec_mfhi rd s
  | mflo rd => exact exec_mflo rd s
  | lis rd v hread => exact exec_lis_of_read hread
  | lw rs rt imm v hread => exact exec_lw_of_read hread
  | sw rs rt imm s' hwrite => exact exec_sw_of_write hwrite
  | jr rs => exact exec_jr rs s
  | jalr rs => exact exec_jalr rs s
  | beq rs rt imm => exact exec_beq rs rt imm s
  | bne rs rt imm => exact exec_bne rs rt imm s

/-- An instruction that would leave `t` left nothing else. -/
theorem Completes.of_exec_eq {t : State} (hc : Completes s i t) (h : Machine.exec i s = .next s') : Completes s i s' :=
  Host.Outcome.next.inj (hc.exec.symm.trans h) ▸ hc

/-- What `exec` answers is what completes. -/
theorem completes_of_exec (h : exec i s = .next s') : Completes s i s' := by
  cases i with
  | add rs rt rd => exact (Completes.add rs rt rd).of_exec_eq h
  | sub rs rt rd => exact (Completes.sub rs rt rd).of_exec_eq h
  | slt rs rt rd => exact (Completes.slt rs rt rd).of_exec_eq h
  | sltu rs rt rd => exact (Completes.sltu rs rt rd).of_exec_eq h
  | mult rs rt => exact (Completes.mult rs rt).of_exec_eq h
  | multu rs rt => exact (Completes.multu rs rt).of_exec_eq h
  | mfhi rd => exact (Completes.mfhi rd).of_exec_eq h
  | mflo rd => exact (Completes.mflo rd).of_exec_eq h
  | jr rs => exact (Completes.jr rs).of_exec_eq h
  | jalr rs => exact (Completes.jalr rs).of_exec_eq h
  | beq rs rt imm => exact (Completes.beq rs rt imm).of_exec_eq h
  | bne rs rt imm => exact (Completes.bne rs rt imm).of_exec_eq h
  | div rs rt =>
    by_cases h0 : s.x rt = 0
    · exact absurd ((exec_div_of_zero h0).symm.trans h) (by simp)
    · by_cases hov : s.x rs = 0x80000000#32 ∧ s.x rt = 0xFFFFFFFF#32 ∧ s.cfg.divOverflow = .fault
      · obtain ⟨ha, hb, hf⟩ := hov
        exact absurd ((exec_div_of_overflow ha hb hf).symm.trans h) (by simp)
      · exact (Completes.div rs rt h0 hov).of_exec_eq h
  | divu rs rt =>
    by_cases h0 : s.x rt = 0
    · exact absurd ((exec_divu_of_zero h0).symm.trans h) (by simp)
    · exact (Completes.divu rs rt h0).of_exec_eq h
  | lis rd =>
    cases hread : s.memRead s.pc with
    | none => exact absurd ((exec_lis_of_no_read hread).symm.trans h) (by simp)
    | some v => exact (Completes.lis rd v hread).of_exec_eq h
  | lw rs rt imm =>
    cases hread : s.memRead (effectiveAddress (s.x rs) imm) with
    | none => exact absurd ((exec_lw_of_no_read hread).symm.trans h) (by simp)
    | some v => exact (Completes.lw rs rt imm v hread).of_exec_eq h
  | sw rs rt imm =>
    cases hwrite : s.memWrite (effectiveAddress (s.x rs) imm) (s.x rt) with
    | none => exact absurd ((exec_sw_of_no_write hwrite).symm.trans h) (by simp)
    | some t => exact (Completes.sw rs rt imm t hwrite).of_exec_eq h

end

end Machine
end Sys2Proof
end

section
/-! The register, arithmetic and memory laws (10_state.md R21; 40_arith_compare.md R104; 41_muldiv.md R124; 20_memory.md
R48, R56, R59): what a write is read back as, and what the wrapped results satisfy over the integers. -/

namespace Sys2Proof
namespace Machine

/-! ## Registers -/

/-- Settles O36: a write to GPR 0 is no write, and any other goes to its own slot only. -/
theorem gprZeroIsHardwired : Obligations.GprZeroIsHardwired := by
  unfold Obligations.GprZeroIsHardwired
  exact fun s v => ⟨x_zero s, setX_zero s v, fun i hi => ⟨setX_x_same s i v hi, fun _ hj => setX_x_other s i v hj⟩⟩

/-! ## Wrapping -/

/-- A word and an integer have one wrapped sum, whether the integer is wrapped before or after. -/
theorem wrap32_toNat_add (a : Word) (n : Int) : wrap32 ((a.toNat : Int) + n) = a + BitVec.ofInt 32 n := by
  rw [wrap32, BitVec.ofInt_add, BitVec.ofInt_natCast, BitVec.ofNat_toNat, BitVec.setWidth_eq]

/-- A wrapped product and sum of signed readings is the words' own. -/
theorem wrap32_toInt_mul_add (a b c : Word) : wrap32 (a.toInt * b.toInt + c.toInt) = a * b + c := by
  rw [wrap32, BitVec.ofInt_add, BitVec.ofInt_mul, BitVec.ofInt_toInt, BitVec.ofInt_toInt, BitVec.ofInt_toInt]

/-- Settles O5: under either reading the wrapped sum is the words' sum, and the wrapped difference their difference. -/
theorem signedAndUnsignedSumsAgree : Obligations.SignedAndUnsignedSumsAgree := by
  unfold Obligations.SignedAndUnsignedSumsAgree
  refine ⟨fun n => ?_, fun a b => ⟨?_, ?_⟩⟩
  · rw [wrap32_toNat, Int.toNat_of_nonneg (Int.emod_nonneg n (by decide))]
  · rw [wrap32_toInt_add, wrap32_toNat_add, BitVec.ofInt_natCast, BitVec.ofNat_toNat, BitVec.setWidth_eq]
  · rw [wrap32_toInt_sub, Int.sub_eq_add_neg, wrap32_toNat_add, BitVec.ofInt_neg, BitVec.ofInt_natCast,
      BitVec.ofNat_toNat, BitVec.setWidth_eq, BitVec.sub_eq_add_neg]

/-! ## Division -/

/-- Wrapped, the quotient and the remainder satisfy the division law whatever the operands are (R124). -/
theorem wrapped_division_law (a b : Word) :
    wrap32 (Int.tdiv a.toInt b.toInt) * b + wrap32 (Int.tmod a.toInt b.toInt) = a := by
  have h := congrArg (BitVec.ofInt 32) (Int.tdiv_mul_add_tmod a.toInt b.toInt)
  rwa [BitVec.ofInt_add, BitVec.ofInt_mul, BitVec.ofInt_toInt, BitVec.ofInt_toInt] at h

/-- Only -2^31 by -1 has a quotient that is no signed word. -/
theorem wrap32_tdiv_toInt {a b : Word} (h : ¬ (a = 0x80000000#32 ∧ b = 0xFFFFFFFF#32)) :
    (wrap32 (Int.tdiv a.toInt b.toInt)).toInt = Int.tdiv a.toInt b.toInt := by
  have hsdiv : wrap32 (Int.tdiv a.toInt b.toInt) = a.sdiv b :=
    BitVec.eq_of_toInt_eq (by rw [wrap32, BitVec.toInt_ofInt, BitVec.toInt_sdiv])
  rw [hsdiv, BitVec.toInt_sdiv_of_ne_or_ne a b (not_and_or.1 h)]

/-- A remainder is always a signed word. -/
theorem wrap32_tmod_toInt (a b : Word) : (wrap32 (Int.tmod a.toInt b.toInt)).toInt = Int.tmod a.toInt b.toInt := by
  rw [← BitVec.toInt_srem, wrap32, BitVec.ofInt_toInt]

/-- A remainder that is not zero has the sign of the dividend. -/
theorem tmod_eq_zero_or_neg_iff (m n : Int) : Int.tmod m n = 0 ∨ (Int.tmod m n < 0 ↔ m < 0) := by
  by_cases hdvd : n ∣ m
  · exact .inl (Int.tmod_eq_zero_of_dvd hdvd)
  · right
    rw [← Int.sign_eq_neg_one_iff_neg, Int.sign_tmod, if_neg hdvd, Int.sign_eq_neg_one_iff_neg]

/-- Settles O10: the law of truncating division over the integers, wrapped; outside -2^31 by -1 quotient and remainder
are signed words, so it holds unwrapped. -/
theorem divisionLaw : Obligations.DivisionLaw := by
  unfold Obligations.DivisionLaw
  intro rs rt s s' hexec
  cases completes_of_exec hexec with | div _ _ h0 _ =>
  rw [setHiLo_hi, setHiLo_lo]
  refine ⟨(wrap32_toInt_mul_add _ _ _).trans (wrapped_division_law _ _), fun hov => ?_⟩
  rw [wrap32_tdiv_toInt hov, wrap32_tmod_toInt]
  refine ⟨Int.tdiv_mul_add_tmod _ _, ?_, tmod_eq_zero_or_neg_iff _ _⟩
  rw [Int.natAbs_tmod]
  exact Nat.mod_lt _ (Int.natAbs_pos.2 (mt toInt_eq_zero_iff.1 h0))

/-! ## Memory -/

/-- Settles O21: the last write of the list either has the address or can be left out. -/
theorem byteReadsMostRecentWrite : Obligations.ByteReadsMostRecentWrite := by
  unfold Obligations.ByteReadsMostRecentWrite
  intro writes m a
  induction writes using List.reverseRecOn with
  | nil => rfl
  | append_singleton writes w ih =>
    rw [List.foldl_append, List.foldl_cons, List.foldl_nil, Memory.read_write, ih, List.reverse_append,
      List.reverse_singleton, List.singleton_append, List.find?_cons]
    by_cases hw : w.1 = a
    · simp [hw]
    · simp [hw, Ne.symm hw]

/-- A canonical memory lists the bytes that do not read as zero, and no other. -/
theorem Memory.mem_iff_read {m : Memory} (h : m.wf) {a : Nat} {b : Byte} : (a, b) ∈ m ↔ b ≠ 0 ∧ m.read a = b := by
  obtain ⟨hrise, hne⟩ := h
  induction m with
  | nil =>
    exact iff_of_false List.not_mem_nil fun ⟨hb, hread⟩ => hb hread.symm
  | cons c m ih =>
    obtain ⟨k, v⟩ := c
    obtain ⟨hfirst, hrise⟩ := List.pairwise_cons.1 hrise
    have hrest := ih hrise fun c hc => hne c (List.mem_cons_of_mem _ hc)
    have hv : v ≠ 0 := hne _ List.mem_cons_self
    by_cases ha : a = k
    · subst ha
      have hnot : (a, b) ∉ m := fun hmem => absurd (hfirst _ hmem) (Nat.lt_irrefl a)
      simp only [List.mem_cons, hnot, or_false, Prod.mk.injEq, true_and, Memory.read, if_true]
      exact ⟨fun e => ⟨e ▸ hv, e.symm⟩, fun ⟨_, e⟩ => e.symm⟩
    · simp only [List.mem_cons, Prod.mk.injEq, ha, false_and, false_or, Memory.read, if_false, hrest]

/-- Settles O22: canonical memories that read alike list the same bytes, in the same rising order. -/
theorem canonicalMemoriesReadingAlikeAreEqual : Obligations.CanonicalMemoriesReadingAlikeAreEqual := by
  unfold Obligations.CanonicalMemoriesReadingAlikeAreEqual
  intro m m' h h' hread
  have hsame : ∀ c, c ∈ m ↔ c ∈ m' := fun c => by
    rw [Memory.mem_iff_read h, Memory.mem_iff_read h', hread]
  have hnodup {m : Memory} (h : m.wf) : m.Nodup := h.1.imp fun hlt he => hlt.ne (congrArg Prod.fst he)
  have hperm : m.Perm m' := (List.perm_ext_iff_of_nodup (hnodup h) (hnodup h')).2 hsame
  exact hperm.eq_of_pairwise (fun c e _ _ hce hec => absurd hce hec.asymm) h.1 h'.1

/-- A store to an address that is not the port's succeeded inside memory. -/
theorem memWrite_store {s s' : State} {a v : Word} (hport : a ≠ s.cfg.outputAddr) (h : s.memWrite a v = some s') :
    a.toNat + 3 < s.cfg.memSize.val ∧ s' = { s with mem := s.mem.writeWord a.toNat v } := by
  obtain ⟨hp, -⟩ | ⟨-, hin, e⟩ := memWrite_cases h
  · exact absurd hp hport
  · exact ⟨hin, e⟩

/-- Three bytes of a word, joined, are the word without its lowest byte. -/
theorem append_upper_bytes (b : Byte) (v : Word) :
    wordOfBytes (byteOfWord v 1) (byteOfWord v 2) (byteOfWord v 3) b = b ++ v.extractLsb' 8 24 := by
  apply BitVec.eq_of_getLsbD_eq
  intro n hn
  simp only [wordOfBytes, byteOfWord, BitVec.getLsbD_append, BitVec.getLsbD_extractLsb']
  interval_cases n <;> simp

/-- Settles O20: the read's four bytes are the store's bytes 1, 2 and 3 and the byte above the store. -/
theorem overlappingReadSeesStoredBytes : Obligations.OverlappingReadSeesStoredBytes := by
  unfold Obligations.OverlappingReadSeesStoredBytes
  intro s s' addr v hport hin hw
  obtain ⟨-, rfl⟩ := memWrite_store hport hw
  have hnext : (addr + 1#32).toNat = addr.toNat + 1 := by
    have hsize : s.cfg.memSize.val < 0x7FFF8001 := s.cfg.memSize.isLt
    rw [BitVec.toNat_add, BitVec.toNat_ofNat]
    omega
  refine memRead_eq_some.2 ⟨by rw [hnext]; exact hin, ?_⟩
  have byte := Memory.read_writeWord_add s.mem addr.toNat v
  have above := Memory.read_writeWord_other (m := s.mem) v (Or.inr (Nat.lt_succ_self (addr.toNat + 3)))
  rw [hnext, Memory.readWord]
  rw [byte 1 (by decide), byte 2 (by decide), byte 3 (by decide), above, append_upper_bytes]

/-- Settles O23: the fetch reads the stored word back, so the step runs what that word decodes to. -/
theorem fetchSeesStoredWord : Obligations.FetchSeesStoredWord := by
  unfold Obligations.FetchSeesStoredWord
  intro rs rt imm s s' i ea hport hexec hdec
  cases completes_of_exec hexec with | sw _ _ _ _ hw =>
  obtain ⟨hin, rfl⟩ := memWrite_store hport hw
  rw [← nextWord_eq]
  exact engineStep_of_decode (memRead_eq_some.2 ⟨hin, Memory.readWord_writeWord s.mem _ _⟩) hdec

end Machine
end Sys2Proof
end

section
/-! The statements about every instruction (10_state.md R20 to R24; 60_exceptions.md R200): which parts of the state it
writes and reads, read off the rules of `Completes`, and which faults it raises. -/

namespace Sys2Proof
namespace Machine

/-! ## What an instruction writes -/

/-- Settles O37: no shape of `Effect` reaches the run loop's state. -/
theorem instructionsKeepRunState : Obligations.InstructionsKeepRunState := by
  unfold Obligations.InstructionsKeepRunState
  exact fun _ _ _ h => (exec_effect h).runStateKept

/-- Settles O13: of the instructions' rules only those of the four excluded ones write HI and LO. -/
theorem onlyMulDivWriteHiLo : Obligations.OnlyMulDivWriteHiLo := by
  unfold Obligations.OnlyMulDivWriteHiLo
  intro i s s' hi hexec
  cases completes_of_exec hexec with
  | mult rs rt | multu rs rt | div rs rt | divu rs rt =>
    obtain ⟨hmult, hmultu, hdiv, hdivu⟩ := hi rs rt
    contradiction
  | sw rs rt imm _ hwrite =>
    obtain ⟨-, -, hkept, -⟩ := memWrite_keeps_registers hwrite
    exact hkept
  | add | sub | slt | sltu | mfhi | mflo | lis | lw | jr | jalr | beq | bne => exact ⟨rfl, rfl⟩

/-- Settles O24: of the instructions' rules only that of `sw` writes memory or emits. -/
theorem onlySwChangesMemory : Obligations.OnlySwChangesMemory := by
  unfold Obligations.OnlySwChangesMemory
  intro i s s' hi hexec
  cases completes_of_exec hexec with
  | sw rs rt imm => exact absurd rfl (hi rs rt imm)
  | add | sub | slt | sltu | mult | multu | div | divu | mfhi | mflo | lis | lw | jr | jalr | beq | bne =>
    exact memoryKept_of_eq rfl rfl

/-! ## PC -/

/-- Settles O29: PC of each rule, the branch target being the sum modulo 2^32. -/
theorem pcAfterEachInstruction : Obligations.PcAfterEachInstruction := by
  unfold Obligations.PcAfterEachInstruction
  intro i s s' hexec
  cases completes_of_exec hexec with
  | sw rs rt imm _ hwrite =>
    obtain ⟨-, hpc, -⟩ := memWrite_keeps_registers hwrite
    exact hpc
  | beq rs rt imm => exact wrap32_toNat_add s.pc (4 * imm) ▸ rfl
  | bne rs rt imm => exact wrap32_toNat_add s.pc (4 * imm) ▸ ite_not _ _ _
  | add | sub | slt | sltu | mult | multu | div | divu | mfhi | mflo | lis | lw | jr | jalr => rfl

/-- Whole words do not change an address's residue modulo 4. -/
theorem toNat_add_words_mod_four (a : Word) (n : Int) : (a + BitVec.ofInt 32 (4 * n)).toNat % 4 = a.toNat % 4 := by
  rw [← wrap32_toNat_add, wrap32_toNat]
  omega

/-- Settles O30: but for jr and jalr PC is npc, or whole words away from it. -/
theorem onlyRegisterJumpsUnalignPc : Obligations.OnlyRegisterJumpsUnalignPc := by
  unfold Obligations.OnlyRegisterJumpsUnalignPc
  intro i s s' hi hexec
  have hpc := pcAfterEachInstruction i s s' hexec
  cases i with
  | jr rs => exact absurd rfl (hi rs).1
  | jalr rs => exact absurd rfl (hi rs).2
  | lis rd => rw [hpc]; exact toNat_add_words_mod_four s.pc 1
  | beq rs rt imm =>
    rw [hpc]
    split
    · exact toNat_add_words_mod_four s.pc imm
    · rfl
  | bne rs rt imm =>
    rw [hpc]
    split
    · rfl
    · exact toNat_add_words_mod_four s.pc imm
  | add | sub | slt | sltu | mult | multu | div | divu | mfhi | mflo | lw | sw => rw [hpc]

/-! ## What an instruction reads -/

/-- A word write depends on the parameters and memory alone, and it changes memory and OUT alone. -/
theorem memWrite_congr {s s' t : State} {a v : Word} (hcfg : t.cfg = s.cfg) (hmem : t.mem = s.mem)
    (h : s.memWrite a v = some s') :
    ∃ m emitted, s' = { s with mem := m, out := s.out ++ emitted } ∧
      t.memWrite a v = some { t with mem := m, out := t.out ++ emitted } := by
  obtain ⟨hport, rfl⟩ | ⟨hport, hin, rfl⟩ := memWrite_cases h
  · rw [← hcfg] at hport
    rw [hport, memWrite_output]
    exact ⟨s.mem, [v], rfl, by rw [← hmem]; rfl⟩
  · rw [← hcfg] at hport hin
    rw [memWrite_of_inBounds hport hin, hmem]
    exact ⟨_, [], by rw [List.append_nil], by rw [List.append_nil]⟩

section
variable {i : Instr} {s s' : State}

/-- Another pair in HI and LO passes unread and unwritten through an instruction that is no move and writes no pair. -/
theorem Completes.setHiLo (h l : Word) (hc : Completes s i s')
    (hi : ∀ rs rt rd, i ≠ .mult rs rt ∧ i ≠ .multu rs rt ∧ i ≠ .div rs rt ∧ i ≠ .divu rs rt ∧ i ≠ .mfhi rd ∧
      i ≠ .mflo rd) : Completes (s.setHiLo h l) i (s'.setHiLo h l) := by
  cases hc with
  | mult rs rt | multu rs rt | div rs rt | divu rs rt =>
    obtain ⟨hmult, hmultu, hdiv, hdivu, -, -⟩ := hi rs rt 0
    contradiction
  | mfhi rd | mflo rd =>
    obtain ⟨-, -, -, -, hmfhi, hmflo⟩ := hi 0 0 rd
    contradiction
  | sw rs rt imm _ hwrite =>
    obtain ⟨m, emitted, rfl, ht⟩ := memWrite_congr (s := s) (t := s.setHiLo h l) rfl rfl hwrite
    exact .sw rs rt imm _ ht
  | lis rd v hread => exact .lis rd v hread
  | lw rs rt imm v hread => exact .lw rs rt imm v hread
  | add | sub | slt | sltu | jr | jalr | beq | bne => constructor

/-- Another pair in HI and LO is lost on an instruction that writes the pair. -/
theorem Completes.setHiLo_overwritten (h l : Word) (hc : Completes s i s')
    (hi : ∃ rs rt, i = .mult rs rt ∨ i = .multu rs rt ∨ i = .div rs rt ∨ i = .divu rs rt) :
    Completes (s.setHiLo h l) i s' := by
  obtain ⟨rs, rt, rfl | rfl | rfl | rfl⟩ := hi
  · cases hc; exact .mult rs rt
  · cases hc; exact .multu rs rt
  · cases hc with | div _ _ h0 hov => exact .div rs rt h0 hov
  · cases hc with | divu _ _ h0 => exact .divu rs rt h0

/-- Another OUT, STATUS, STEPS and MARKS pass unread and unwritten through every instruction but `sw`. -/
theorem Completes.withHostState (out : List Word) (st : Status) (n : Nat) (m : Option Marks) (hc : Completes s i s')
    (hi : ∀ rs rt imm, i ≠ .sw rs rt imm) :
    Completes { s with out := out, status := st, steps := n, marks := m } i
      { s' with out := out, status := st, steps := n, marks := m } := by
  cases hc with
  | sw rs rt imm => exact absurd rfl (hi rs rt imm)
  | lis rd v hread => exact .lis rd v hread
  | lw rs rt imm v hread => exact .lw rs rt imm v hread
  | div rs rt h0 hov => exact .div rs rt h0 hov
  | divu rs rt h0 => exact .divu rs rt h0
  | add | sub | slt | sltu | mult | multu | mfhi | mflo | jr | jalr | beq | bne => constructor

end

/-- Settles O14: an instruction that is no move either overwrites another pair in HI and LO or passes it through. -/
theorem onlyMovesReadHiLo : Obligations.OnlyMovesReadHiLo := by
  unfold Obligations.OnlyMovesReadHiLo
  intro i s s' h l hi hexec
  have hc := completes_of_exec hexec
  cases i with
  | mfhi rd => exact absurd rfl (hi rd).1
  | mflo rd => exact absurd rfl (hi rd).2
  | mult | multu | div | divu =>
    exact ⟨s', (hc.setHiLo_overwritten h l (by simp)).exec, rfl, rfl, rfl, rfl, runStateKept_refl s', rfl, rfl⟩
  | add | sub | slt | sltu | lis | lw | sw | jr | jalr | beq | bne =>
    exact ⟨_, (hc.setHiLo h l (by simp)).exec, rfl, rfl, rfl, rfl, runStateKept_refl s', rfl, rfl⟩

/-- Settles O38: but for `sw` another host state passes through; `sw` puts the same words at the end of either OUT. -/
theorem hostStateIsUnreadable : Obligations.HostStateIsUnreadable := by
  unfold Obligations.HostStateIsUnreadable
  intro i s s' out st n m hexec
  have hc := completes_of_exec hexec
  by_cases hsw : ∃ rs rt imm, i = .sw rs rt imm
  · obtain ⟨rs, rt, imm, rfl⟩ := hsw
    cases hc with | sw _ _ _ _ hwrite =>
    obtain ⟨mem, emitted, rfl, ht⟩ :=
      memWrite_congr (s := s) (t := { s with out := out, status := st, steps := n, marks := m }) rfl rfl hwrite
    exact ⟨_, emitted, (Completes.sw rs rt imm _ ht).exec, rfl, rfl, rfl, rfl, rfl, rfl, rfl⟩
  · have hnot : ∀ rs rt imm, i ≠ .sw rs rt imm := fun rs rt imm e => hsw ⟨rs, rt, imm, e⟩
    obtain ⟨-, hout⟩ := onlySwChangesMemory i s s' hnot hexec
    exact ⟨_, [], (hc.withHostState out st n m hnot).exec, rfl, rfl, rfl, rfl, rfl,
      hout.trans (List.append_nil _).symm, (List.append_nil _).symm⟩

/-! ## Which fault an instruction raises -/

/-- Settles O40: each fault names the instruction that raises it, and its own code. -/
theorem instructionFaultsByKind : Obligations.InstructionFaultsByKind := by
  unfold Obligations.InstructionFaultsByKind
  intro i s
  refine ⟨exec_not_refused i s, fun r hexec => ?_⟩
  obtain ⟨rd, rfl, -, rfl⟩ | ⟨rs, rt, imm, rfl, -, rfl⟩ | ⟨rs, rt, imm, rfl, -, rfl⟩ |
    ⟨rs, rt, rfl | rfl, -, rfl⟩ | ⟨rs, rt, rfl, -, hf, rfl⟩ := exec_fault_cases hexec
  · rfl
  · rfl
  · rfl
  · exact .inl rfl
  · rfl
  · exact .inr ⟨rfl, hf⟩

end Machine
end Sys2Proof
end

section
/-! The step and the run (60_exceptions.md R201, R206, R210, R220 to R225; 30_encoding.md R85): the order of a step's
checks, and how many steps a run took before it ended. -/

namespace Sys2Proof
namespace Machine

/-! ## One step -/

/-- Settles O46: an ended run stays as it is, in one step and in any number of iterations. -/
theorem endedRunTakesNoStep : Obligations.EndedRunTakesNoStep := by
  unfold Obligations.EndedRunTakesNoStep
  exact fun s h => ⟨step_of_ended h, runLoop_of_ended h⟩

/-- An instruction keeps OUT or emits one word, whatever the shape of its effect. -/
theorem Effect.out {s t : State} (h : Effect s t) : t.out = s.out ∨ ∃ v, t.out = s.out ++ [v] := by
  cases h with
  | emit v => exact .inr ⟨v, rfl⟩
  | none | gpr | hiLo | pc | gprPc | store => exact .inl rfl

/-- Settles O39: only a completed step runs an instruction, and the bookkeeping touches neither the parameters nor
OUT. -/
theorem stepsKeepParametersAndOnlyAppendOutput : Obligations.StepsKeepParametersAndOnlyAppendOutput := by
  unfold Obligations.StepsKeepParametersAndOnlyAppendOutput
  intro s s' hstep
  obtain ⟨-, rfl⟩ | ⟨-, -, rfl⟩ | ⟨-, w, i, t, -, -, hx, -, rfl⟩ := step_cases hstep
  · exact ⟨rfl, .inl rfl⟩
  · exact ⟨rfl, .inl rfl⟩
  · obtain ⟨hcfg, -⟩ := exec_runStateKept hx
    exact ⟨hcfg, (exec_effect hx).out⟩

section
variable {s t : State} {w : Word} {i : Instr}

/-- An engine step's fault is the step's. -/
theorem step_of_fault {r : Fault} (hf : s.fetches) (h : engineStep s = .fault r) : step s = .fault r := by
  rw [step_of_fetches hf, h]

/-- The engine runs the fetched word's instruction with PC advanced by 4 (R84, R85). -/
theorem engineStep_eq_exec (hm : s.memRead s.pc = some w) (hd : decode w = .ok i) :
    engineStep s = exec i { s with pc := s.pc + 4#32 } := by
  rw [engineStep_of_decode hm hd, nextWord_eq]
  rfl

/-- A completed step that leaves the heap pointer at or below the stack pointer is counted (R221, R222). -/
theorem step_of_apart (hf : s.fetches) (h : engineStep s = .next t) (hle : (t.x hpReg).toNat ≤ (t.x spReg).toNat) :
    step s = .next t.counted := by
  rw [step_of_completed hf h]
  exact afterStep_of_apart (Bool.eq_false_iff.2 fun hc => hle.not_gt (collides_iff.1 hc))

/-- A completed step that leaves the heap pointer above the stack pointer faults (R203, R221). -/
theorem step_of_collision (hf : s.fetches) (h : engineStep s = .next t)
    (hlt : (t.x spReg).toNat < (t.x hpReg).toNat) :
    step s = .fault (.stackHeapCollision ⟨s.pc, s.memRead s.pc, t.steps + 1⟩ (t.x hpReg) (t.x spReg)) := by
  rw [step_of_completed hf h]
  exact afterStep_of_collides (collides_iff.2 hlt)

end

/-- Settles O41: the engine step is the decoded instruction, and the collision check decides after it. -/
theorem stepRunsDecodedInstruction : Obligations.StepRunsDecodedInstruction := by
  unfold Obligations.StepRunsDecodedInstruction
  intro s w i hr hp hm hd
  rw [← engineStep_eq_exec hm hd, ← hm]
  exact ⟨fun r => step_of_fault ⟨hr, hp⟩,
    fun t h => ⟨step_of_apart ⟨hr, hp⟩ h, step_of_collision ⟨hr, hp⟩ h⟩⟩

/-- Settles O42: each check is reached only when those before it have passed. -/
theorem stepChecksInOrder : Obligations.StepChecksInOrder := by
  unfold Obligations.StepChecksInOrder
  intro s hr
  refine ⟨step_of_sentinel hr, fun hp => ⟨fun hout => ?fetch, fun w hm => ⟨fun e hd => ?unknown, fun i hd => ?run⟩⟩⟩
  case fetch => exact step_of_fault ⟨hr, hp⟩ (engineStep_of_fetch_none (memRead_eq_none.2 hout))
  case unknown => exact step_of_fault ⟨hr, hp⟩ (engineStep_of_unknown hm hd)
  case run =>
    rw [← engineStep_eq_exec hm hd]
    refine ⟨fun r => step_of_fault ⟨hr, hp⟩, fun t h => ⟨fun ⟨r, hfault⟩ => ?_, fun hlt => ?_⟩⟩
    · by_contra hle
      exact absurd (hfault.symm.trans (step_of_apart ⟨hr, hp⟩ h (Nat.le_of_not_lt hle))) (by simp)
    · exact ⟨_, step_of_collision ⟨hr, hp⟩ h hlt⟩

/-- UnknownInstruction comes from the decoder alone, with the record it writes. -/
theorem step_unknownInstruction {s : State} {site : FaultSite} (h : step s = .fault (.unknownInstruction site)) :
    ∃ w e, s.memRead s.pc = some w ∧ decode w = .error e ∧ site = ⟨s.pc, some w, s.steps⟩ := by
  obtain ⟨-, ⟨-, hr⟩ | ⟨w, hm, ⟨e, hd, hr⟩ | ⟨i, -, hx | ⟨t, -, -, hr⟩⟩⟩⟩ := step_fault_cases h
  · exact absurd hr (by simp)
  · exact ⟨w, e, hm, hd, Fault.unknownInstruction.inj hr⟩
  · exact absurd (exec_fault_cases hx) (by simp)
  · exact absurd hr (by simp)

/-- Settles O43: the decoder rejects exactly the words outside the table, and only it raises UnknownInstruction. -/
theorem unknownInstructionExactlyOutsideTheTable : Obligations.UnknownInstructionExactlyOutsideTheTable := by
  unfold Obligations.UnknownInstructionExactlyOutsideTheTable
  intro s w hr hp hm
  have hfetched {w' : Word} (hm' : s.memRead s.pc = some w') : w' = w := Option.some.inj (hm'.symm.trans hm)
  rw [← decode_error_iff]
  refine ⟨⟨fun ⟨e, hd⟩ => step_of_fault ⟨hr, hp⟩ (engineStep_of_unknown hm hd), fun h => ?_⟩, fun site h => ?_⟩
  · obtain ⟨w', e, hm', hd, -⟩ := step_unknownInstruction h
    exact ⟨e, hfetched hm' ▸ hd⟩
  · obtain ⟨w', e, hm', -, rfl⟩ := step_unknownInstruction h
    rw [hfetched hm']

/-! ## The run -/

section
variable {s : State}

/-- A run of `j + k` iterations is a run of `j` and then of `k`. -/
theorem runLoop_add (j k : Nat) : runLoop (j + k) s = runLoop k (runLoop j s) := by
  induction j generalizing s with
  | zero => rw [Nat.zero_add]; rfl
  | succ j ih =>
    rw [Nat.succ_add]
    cases hs : step s with
    | next s' => rw [runLoop_succ_next hs, runLoop_succ_next hs, ih]
    | fault r => rw [runLoop_succ_fault hs, runLoop_succ_fault hs, runLoop_of_ended (by simp)]
    | refused r => exact absurd hs (step_not_refused s r)

/-- A run that still goes on after `n` iterations has fetched in each of them and completed `n` steps (R220, R222). -/
theorem runLoop_running {n : Nat} (h : (runLoop n s).status = .running) :
    (runLoop n s).steps = s.steps + n ∧
      ∀ j < n, (runLoop j s).status = .running ∧ (runLoop j s).pc ≠ s.cfg.sentinel := by
  induction n generalizing s with
  | zero => exact ⟨rfl, fun j hj => absurd hj j.not_lt_zero⟩
  | succ n ih =>
    cases hs : step s with
    | refused r => exact absurd hs (step_not_refused s r)
    | fault r =>
      rw [runLoop_succ_fault hs, fail_status] at h
      exact absurd h (by simp)
    | next s' =>
      rw [runLoop_succ_next hs] at h ⊢
      obtain ⟨hne, rfl⟩ | ⟨-, -, rfl⟩ | ⟨⟨hr, hp⟩, w, i, t, -, -, hx, -, rfl⟩ := step_cases hs
      · rw [runLoop_of_ended hne] at h
        exact absurd h hne
      · rw [runLoop_of_ended (by simp)] at h
        exact absurd h (by simp)
      · obtain ⟨hcfg, -, hsteps, -⟩ := exec_runStateKept hx
        obtain ⟨hcount, hfetch⟩ := ih h
        rw [counted_steps, hsteps] at hcount
        rw [counted_cfg, hcfg] at hfetch
        refine ⟨by omega, fun j hj => ?_⟩
        cases j with
        | zero => exact ⟨hr, hp⟩
        | succ j =>
          rw [runLoop_succ_next hs]
          exact hfetch j (Nat.lt_of_succ_lt_succ hj)

/-- A run that has faulted did so in one of its iterations, before which it was going on (R206). -/
theorem runLoop_faulted {k : Nat} {r : Fault} (hr : s.status = .running) (hk : (runLoop k s).status = .faulted r) :
    ∃ n < k, (runLoop n s).status = .running ∧ step (runLoop n s) = .fault r := by
  induction k with
  | zero => exact absurd (hr.symm.trans hk) (by simp)
  | succ k ih =>
    rw [runLoop_add k 1] at hk
    by_cases hrun : (runLoop k s).status = .running
    · refine ⟨k, k.lt_succ_self, hrun, ?_⟩
      cases hs : step (runLoop k s) with
      | refused r => exact absurd hs (step_not_refused _ r)
      | fault r' =>
        rw [runLoop_succ_fault hs, fail_status] at hk
        rw [Status.faulted.inj hk]
      | next s' =>
        rw [runLoop_succ_next hs] at hk
        obtain ⟨hne, -⟩ | ⟨-, -, rfl⟩ | ⟨-, w, i, t, -, -, hx, -, rfl⟩ := step_cases hs
        · exact absurd hrun hne
        · exact absurd hk (by simp [runLoop])
        · obtain ⟨-, hstatus, -, -⟩ := exec_runStateKept hx
          exact absurd (hstatus.symm.trans hk) (by simp [hrun])
    · rw [runLoop_of_ended hrun] at hk
      obtain ⟨n, hn, hstep⟩ := ih hk
      exact ⟨n, hn.trans k.lt_succ_self, hstep⟩

end

/-- Settles O47: a halted run met SENTINEL after `n` iterations, and until then it went on. -/
theorem normalEndIsAtSentinelWithStepsCounted : Obligations.NormalEndIsAtSentinelWithStepsCounted := by
  unfold Obligations.NormalEndIsAtSentinelWithStepsCounted
  intro s k hr hk
  obtain ⟨n, hn, hrun, hpc, hend⟩ := runLoop_halted hr hk
  obtain ⟨hcount, hfetch⟩ := runLoop_running hrun
  exact ⟨n, hn, hrun, hpc, hfetch, hcount, hend⟩

/-- Settles O48: a faulted run went on for `n` iterations, and the state that the fault leaves is an ended one. -/
theorem faultedRunStopsAtItsFault : Obligations.FaultedRunStopsAtItsFault := by
  unfold Obligations.FaultedRunStopsAtItsFault
  intro s k r hr hk
  obtain ⟨n, hn, hrun, hstep⟩ := runLoop_faulted hr hk
  obtain ⟨hcount, -⟩ := runLoop_running hrun
  refine ⟨n, hn, hrun, hcount, hstep, fun m hm => ?_⟩
  obtain ⟨d, rfl⟩ := Nat.exists_eq_add_of_lt hm
  rw [Nat.add_assoc, runLoop_add, runLoop_succ_fault hstep, fail_status]

end Machine
end Sys2Proof
end

section
/-! The diagnostics (60_exceptions.md R224): the walk over chunks that fill the space up to its boundary. -/

namespace Sys2Proof
namespace Machine

/-- The lines of a chunk are its words, each at its own address. -/
theorem chunkLines_eq_map (m : Memory) (a n : Nat) :
    chunkLines m a n = (List.range n).map (fun k => (a + 4 * k, m.readWord (a + 4 * k))) := by
  induction n generalizing a with
  | zero => rfl
  | succ n ih =>
    have hshift (k : Nat) : a + 4 + 4 * k = a + 4 * (k + 1) := by omega
    simp only [chunkLines, ih, List.range_succ_eq_map, List.map_cons, List.map_map, Function.comp_def, hshift,
      Nat.mul_zero, Nat.add_zero, Nat.succ_eq_add_one]

/-- Every chunk has a header, so it takes at least one byte. -/
theorem length_le_chunksSize (ns : List Nat) : ns.length ≤ chunksSize ns := by
  induction ns with
  | nil => exact Nat.le_refl 0
  | cons n ns ih =>
    rw [List.length_cons, chunksSize_cons]
    omega

/-- A walk over chunks that end at its boundary emits their words. -/
theorem walkChunks_of_chunksFrom {m : Memory} {size bound fuel a : Nat} {ns : List Nat} (hchunks : ChunksFrom m a ns)
    (hbound : bound = a + chunksSize ns) (hsize : bound ≤ size) (hfuel : ns.length ≤ fuel) :
    walkChunks m size bound fuel a = chunkWords m a ns := by
  induction ns generalizing a fuel with
  | nil =>
    obtain rfl : a = bound := hbound.symm
    exact walkChunks_at_bound m size a fuel
  | cons n ns ih =>
    obtain ⟨hheader, hrest⟩ := hchunks
    rw [chunksSize_cons] at hbound
    obtain _ | fuel := fuel
    · exact absurd hfuel (by simp)
    · have hwf : wellFormedChunk m size a bound = true := wellFormedChunk_iff.2 (by omega)
      have hlines : (m.readWord a).toNat / 4 - 1 = n := by omega
      rw [walkChunks_chunk fuel hwf, hlines, hheader, chunkLines_eq_map, chunkWords,
        ih hrest (by omega) (Nat.le_of_succ_le_succ hfuel)]

/-- Settles O54: the walk's fuel is enough, a chunk being no shorter than its header. -/
theorem heapWalkEmitsChunkWords : Obligations.HeapWalkEmitsChunkWords := by
  unfold Obligations.HeapWalkEmitsChunkWords
  intro s ns hchunks hbound hsize
  have hlength := length_le_chunksSize ns
  have hfuel : ns.length ≤ (s.x 28).toNat + 1 := by omega
  exact walkChunks_of_chunksFrom hchunks hbound hsize hfuel

/-- Settles O55: the same walk, from x[30] to STACK_TOP. -/
theorem stackWalkEmitsChunkWords : Obligations.StackWalkEmitsChunkWords := by
  unfold Obligations.StackWalkEmitsChunkWords
  intro s ns hchunks hbound hsize
  have hlength := length_le_chunksSize ns
  have hfuel : ns.length ≤ s.cfg.stackTop.toNat + 1 := by omega
  exact walkChunks_of_chunksFrom hchunks hbound hsize hfuel

end Machine
end Sys2Proof
end
